-- ==== Sys2Proof/Word.lean ====
section
/-! DEFINITION. The 16-bit word and the widths of the small fields (spec/00_scope.md R2, R3; spec/10_state.md R15;
spec/30_encoding.md R38). Bit 0 is the least significant bit throughout (R3). -/

namespace Sys2Proof

/-- A register, a memory cell, an address, the counter and an instruction word are each 16 bits (R2, R11, R23, R38). -/
abbrev Word := BitVec 16

/-- The index of one of the 16 general registers (R7); as an input of `Invoke` it is 4 bits wide (R43), so all 16 values occur. -/
abbrev RegIdx := Fin 16

/-- The handler-select input of `Invoke`, 3 bits (R42). -/
abbrev OpSel := BitVec 3

/-- The opcode field OPC, bits 15:10 of an instruction word (R38). -/
abbrev Opcode := BitVec 6

/-- The base selector BR, bits 9:8 of an instruction word (R39). -/
abbrev BaseSel := BitVec 2

/-- The unsigned displacement DISP, bits 7:0 of an instruction word (R40). -/
abbrev Disp := BitVec 8

end Sys2Proof
end

