-- ==== Sys2Proof/Config.lean ====
section
/-! DEFINITION. What is fixed for one core instance (spec/00_scope.md section 3): the three parameters `BASE_MAP`, `IC_OVERFLOW`
and `OPCODE6`, the accumulator index `ACC`, and the seven handlers they speak of. Their default values stand in
Sys2Proof/Decode.lean (`Opcode6.reference`) and Sys2Proof/Machine/Params.lean. The spec leaves no result open, so there is no
free value here (spec/93_implementation_defined.md section 1). -/

namespace Sys2Proof

/-- The seven execute handlers, in the order of `op_sel` (R42). A handler is also the symbolic completion code of an
invocation: "one symbolic value per opcode" (R20). -/
inductive Handler where
  | ab | sbb | mb | lb | dlb | stb | dstb
  deriving DecidableEq, Repr

/-- `ACC`: the register the reference decode supplies as `Rd` (R8, R43, D8). -/
def acc : RegIdx := 2

/-- `BASE_MAP`: the general register each of the four base selectors names (R9). -/
abbrev BaseMap := Vector RegIdx 4

/-- `IC_OVERFLOW`: what an invocation at `ic = 0xFFFF` does (R12, D4). -/
inductive IcOverflow where
  | wrap
  | fault
  deriving DecidableEq, Repr

/-- `OPCODE6`: the 6-bit opcode value of each instruction under the reference decode (R44, D9). -/
structure Opcode6 where
  ab : Opcode
  sbb : Opcode
  mb : Opcode
  lb : Opcode
  dlb : Opcode
  stb : Opcode
  dstb : Opcode
  deriving DecidableEq, Repr

/-- The configuration of a core instance: "fixed for the instance, not state" (R65). -/
structure Config where
  baseMap : BaseMap
  icOverflow : IcOverflow
  opcode6 : Opcode6
  deriving DecidableEq, Repr

end Sys2Proof
end

