-- ==== Sys2Proof/Syntax.lean ====
section
/-! DEFINITION. The instructions: one constructor per row of spec/opcode_table.json, with the operands an invocation has
(spec/30_encoding.md R38, R43): `rd`, the register input of `Invoke` for the single-word handlers; `br`, the base selector;
`disp`, the displacement. DLB and DSTB ignore `rd` (R43), so they carry none. -/

namespace Sys2Proof

/-- An instruction of the core, its operands pulled out of the instruction word and of the inputs of `Invoke`. -/
inductive Instr where
  /-- Add-Base (R48). -/
  | ab (rd : RegIdx) (br : BaseSel) (disp : Disp)
  /-- Subtract-Base (R49). -/
  | sbb (rd : RegIdx) (br : BaseSel) (disp : Disp)
  /-- Multiply-Base (R50). -/
  | mb (rd : RegIdx) (br : BaseSel) (disp : Disp)
  /-- Load-Base (R51). -/
  | lb (rd : RegIdx) (br : BaseSel) (disp : Disp)
  /-- Double-Load-Base (R52). -/
  | dlb (br : BaseSel) (disp : Disp)
  /-- Store-Base (R53). -/
  | stb (rd : RegIdx) (br : BaseSel) (disp : Disp)
  /-- Double-Store-Base (R54). -/
  | dstb (br : BaseSel) (disp : Disp)
  deriving DecidableEq, Repr

/-- The handler that executes an instruction. -/
def Instr.handler : Instr → Handler
  | .ab _ _ _ => .ab
  | .sbb _ _ _ => .sbb
  | .mb _ _ _ => .mb
  | .lb _ _ _ => .lb
  | .dlb _ _ => .dlb
  | .stb _ _ _ => .stb
  | .dstb _ _ => .dstb

/-- The `rd` operand; none for the two handlers that ignore it (R43). -/
def Instr.rd? : Instr → Option RegIdx
  | .ab rd _ _ => some rd
  | .sbb rd _ _ => some rd
  | .mb rd _ _ => some rd
  | .lb rd _ _ => some rd
  | .dlb _ _ => none
  | .stb rd _ _ => some rd
  | .dstb _ _ => none

/-- The base selector (R39). -/
def Instr.br : Instr → BaseSel
  | .ab _ br _ => br
  | .sbb _ br _ => br
  | .mb _ br _ => br
  | .lb _ br _ => br
  | .dlb br _ => br
  | .stb _ br _ => br
  | .dstb br _ => br

/-- The displacement (R40). -/
def Instr.disp : Instr → Disp
  | .ab _ _ disp => disp
  | .sbb _ _ disp => disp
  | .mb _ _ disp => disp
  | .lb _ _ disp => disp
  | .dlb _ disp => disp
  | .stb _ _ disp => disp
  | .dstb _ disp => disp

end Sys2Proof
end

