-- ==== Sys2Proof/WellFormed.lean ====
section
/-! DEFINITION. Which instructions have an instruction word, and which configurations the spec admits. The core itself accepts
every `rd` (spec/30_encoding.md R43); only the reference decode, which always supplies `rd = 2`, gives an instruction a word. -/

namespace Sys2Proof

/-- The instruction is one the reference decode can supply: its `rd`, if it has one, is `ACC` (R43, R44). -/
def Instr.wellFormed (i : Instr) : Bool :=
  match i.rd? with
  | none => true
  | some rd => rd == acc

/-- `BASE_MAP` names four different registers ("total and injective", R9; it is total by its type). -/
def BaseMap.injective (m : BaseMap) : Bool :=
  decide m.toList.Nodup

/-- The seven opcode values of `OPCODE6` as a list, in `op_sel` order. -/
def Opcode6.values (t : Opcode6) : List Opcode :=
  [t.ab, t.sbb, t.mb, t.lb, t.dlb, t.stb, t.dstb]

/-- "No two rows match one word" (R44): the seven opcode values differ. -/
def Opcode6.distinct (t : Opcode6) : Bool :=
  decide t.values.Nodup

/-- A configuration the spec admits (R9, R44); either value of `IC_OVERFLOW` is admitted. -/
def Config.wellFormed (c : Config) : Bool :=
  BaseMap.injective c.baseMap && c.opcode6.distinct

end Sys2Proof
end

