-- ==== Sys2Proof/Decode.lean ====
section
/-! DEFINITION. The instruction word's fields, the handler select, the reference decode with its default table, and after them
the encoder and the abstract assembler (spec/30_encoding.md R38 to R47). Decoding is total on words and names what it rejects. -/

namespace Sys2Proof

/-! ## Fields of the instruction word (R38) -/

/-- OPC, bits 15:10; the core does not read it (R41). -/
def opcodeOf (w : Word) : Opcode := w.extractLsb' 10 6

/-- BR, bits 9:8: `(instruction_word >> 8) & 0b11` (R39). -/
def baseSelOf (w : Word) : BaseSel := w.extractLsb' 8 2

/-- DISP, bits 7:0: `instruction_word & 0xFF` (R40). -/
def dispOf (w : Word) : Disp := w.extractLsb' 0 8

/-! ## Handler select (R42) -/

/-- The value of `op_sel` that selects a handler; also the 3-bit encoding of its completion code (R20, R42). -/
def Handler.opSel : Handler → OpSel
  | .ab => 0b000
  | .sbb => 0b001
  | .mb => 0b010
  | .lb => 0b011
  | .dlb => 0b100
  | .stb => 0b101
  | .dstb => 0b110

/-- The handler `op_sel` selects; `0b111` selects none (R42, D7). -/
def Handler.ofOpSel (o : OpSel) : Option Handler :=
  if o = 0b000 then some .ab
  else if o = 0b001 then some .sbb
  else if o = 0b010 then some .mb
  else if o = 0b011 then some .lb
  else if o = 0b100 then some .dlb
  else if o = 0b101 then some .stb
  else if o = 0b110 then some .dstb
  else none

/-- The instruction a handler executes on an instruction word and an `rd` input: BR and DISP come from the word, whatever
its opcode field says (R41, R43). -/
def Handler.instr (h : Handler) (rd : RegIdx) (w : Word) : Instr :=
  match h with
  | .ab => .ab rd (baseSelOf w) (dispOf w)
  | .sbb => .sbb rd (baseSelOf w) (dispOf w)
  | .mb => .mb rd (baseSelOf w) (dispOf w)
  | .lb => .lb rd (baseSelOf w) (dispOf w)
  | .dlb => .dlb (baseSelOf w) (dispOf w)
  | .stb => .stb rd (baseSelOf w) (dispOf w)
  | .dstb => .dstb (baseSelOf w) (dispOf w)

/-! ## Reference decode (R44, R45) -/

/-- The default `OPCODE6` (R44; the spec marks these values "from general knowledge, not in source": UNVERIFIED, log 5). -/
def Opcode6.reference : Opcode6 where
  lb := 0b000000
  dlb := 0b000001
  stb := 0b000010
  dstb := 0b000011
  ab := 0b000100
  sbb := 0b000101
  mb := 0b000110

/-- The opcode value of a handler's row. -/
def Opcode6.of (t : Opcode6) : Handler → Opcode
  | .ab => t.ab
  | .sbb => t.sbb
  | .mb => t.mb
  | .lb => t.lb
  | .dlb => t.dlb
  | .stb => t.stb
  | .dstb => t.dstb

/-- The row whose opcode value is `opc`, if any. -/
def Opcode6.handler? (t : Opcode6) (opc : Opcode) : Option Handler :=
  if opc = t.ab then some .ab
  else if opc = t.sbb then some .sbb
  else if opc = t.mb then some .mb
  else if opc = t.lb then some .lb
  else if opc = t.dlb then some .dlb
  else if opc = t.stb then some .stb
  else if opc = t.dstb then some .dstb
  else none

/-- What the reference decode answers: an instruction, or the reserved opcode value it refuses (R45). -/
inductive Decoded where
  | instr (i : Instr)
  | reserved (opc : Opcode)
  deriving DecidableEq, Repr

/-- The reference decode: the row's handler with `rd = 2`, or a refusal by name (R44, R45). -/
def decode (t : Opcode6) (w : Word) : Decoded :=
  match t.handler? (opcodeOf w) with
  | some h => .instr (h.instr acc w)
  | none => .reserved (opcodeOf w)

/-- The 16-bit word the host's numbering of an opcode-table row means: one word, bits above `nbits` zero. -/
def tableWord (nbits w : Nat) : Word := BitVec.ofNat 16 (w % 2 ^ nbits)

/-- The instruction the reference decode reads, under the default `OPCODE6`, from a word numbered as the table numbers it. -/
def decodeTableWord (nbits w : Nat) : Option Instr :=
  match decode Opcode6.reference (tableWord nbits w) with
  | .instr i => some i
  | .reserved _ => none

/-! ## Encoder and abstract assembler -/

/-- An instruction word from its three fields: OPC in 15:10, BR in 9:8, DISP in 7:0 (R38). -/
def wordOf (opc : Opcode) (br : BaseSel) (disp : Disp) : Word := opc ++ br ++ disp

/-- The word of an instruction (R44); `rd` has no place in the word, so only a well-formed instruction decodes back. -/
def encode (t : Opcode6) (i : Instr) : Word := wordOf (t.of i.handler) i.br i.disp

/-- The base selector that names a register as base under a `BASE_MAP`, if there is one. -/
def BaseMap.selector? (m : BaseMap) (rb : RegIdx) : Option BaseSel :=
  if m[0] = rb then some 0
  else if m[1] = rb then some 1
  else if m[2] = rb then some 2
  else if m[3] = rb then some 3
  else none

/-- The word of `MN Rb, disp` (R47): `Rb` a base register by its register, `disp` 0 to 255, `Rd` not written. -/
def assemble (c : Config) (h : Handler) (rb : RegIdx) (disp : Nat) : Option Word :=
  match BaseMap.selector? c.baseMap rb with
  | none => none
  | some br => if disp ≤ 255 then some (wordOf (c.opcode6.of h) br (BitVec.ofNat 8 disp)) else none

end Sys2Proof
end

