-- ==== Sys2Proof/Machine/Params.lean ====
section
/-! DEFINITION. The default values of the parameters of spec/00_scope.md section 3, and the alternative base map the spec admits. -/

namespace Sys2Proof

/-- The default `BASE_MAP`: selector s names R(12+s) (R9, D2). -/
def BaseMap.high : BaseMap := #v[12, 13, 14, 15]

/-- The alternative `BASE_MAP` the spec admits: selector s names R(s) (R9, D2). -/
def BaseMap.low : BaseMap := #v[0, 1, 2, 3]

/-- The default configuration: R12 to R15, `wrap`, the reference opcode values (D2, D4, D9). -/
def Config.default : Config where
  baseMap := BaseMap.high
  icOverflow := .wrap
  opcode6 := Opcode6.reference

/-- The register a base selector names (R9, R39). -/
def BaseMap.reg (m : BaseMap) (br : BaseSel) : RegIdx := m[br.toNat]'br.isLt

end Sys2Proof
end

