-- ==== Sys2Proof/Machine/State.lean ====
section
/-! DEFINITION. The state of one core instance as plain data (spec/10_state.md section 1), the reasons an operation can fail, the
host's operations (R15), and the state after cold reset (spec/70_reset_and_hazards.md R65). -/

namespace Sys2Proof.Machine

/-- The three model faults (spec/60_exceptions.md R56). A faulted invocation RECORDS its fault in `State.flt` and the machine
goes on to a next state; a step never answers `Host.Outcome.fault` (log 8). -/
inductive Fault where
  /-- Raised by `Invoke` with `op_sel = 0b111`, which selects no handler (D7). Safe: no state changes, nothing runs. -/
  | noHandler (opSel : OpSel)
  /-- Raised by `Invoke` while `ir` is UNSET (D5). Safe: no state changes, nothing runs. -/
  | irUnset
  /-- Raised by an invocation at `ic = 0xFFFF` when `IC_OVERFLOW = fault` (D4); it records `ic`. Safe: no state changes. -/
  | icOverflow (ic : Word)
  deriving DecidableEq, Repr

/-- The reasons a step gives no next state. -/
inductive Refusal where
  /-- Raised by an arm of `exec` whose instruction has no meaning yet; no arm does. Safe. -/
  | notModelled (mnemonic : String)
  /-- Raised by `feed` on a word whose opcode is in no row of `OPCODE6`: the reference decode refuses it by name and never
  calls `Invoke` (R45, D9). Safe: nothing runs. -/
  | reservedOpcode (opc : Opcode)
  deriving DecidableEq, Repr

/-- An operation of the host. The first ten are those of R15; `feed` is what the host's fetch/decode loop does for one word
of a program: `HostSetInstr(w)`, then `Invoke` with the reference decode's `(op_sel, rd)` (spec/95_test_vectors.md section 3,
log 11). -/
inductive HostOp where
  | regRead (i : RegIdx)
  | regWrite (i : RegIdx) (v : Word)
  | icRead
  | icReset
  | setInstr (w : Word)
  | memRead (a : Word)
  | memWrite (a : Word) (v : Word)
  | invoke (opSel : OpSel) (rd : RegIdx)
  | coldReset
  | regFileReset
  | feed (w : Word)
  deriving DecidableEq, Repr

/-- The output of an operation (R15's column "outputs"; R16, R17, R20, R56). -/
inductive Output where
  /-- The operation has no output. -/
  | nothing
  /-- A read's word. -/
  | word (v : Word)
  /-- The completion code of a completed invocation (R20); its 3-bit value is `Handler.opSel`. -/
  | code (cc : Handler)
  /-- The fault of a faulted invocation, which outputs no completion code (R20, R56). -/
  | fault (f : Fault)
  /-- The operation was refused because `flt` is set (R56). -/
  | refused
  deriving DecidableEq, Repr

/-- One memory cell at an address: the spec's smallest addressable unit is a 16-bit word (R23, R32; log 1). -/
abbrev Cell := Nat × Word

/-- The paged memory: listed cells by address, rising, none of them zero; an unlisted cell reads 0x0000 (R65). -/
abbrev Memory := List Cell

/-- The one canonical form of a memory: addresses strictly rising, inside the 65536 cells (R23), no cell listed with the
value an unlisted cell reads as. -/
abbrev Memory.wf (m : Memory) : Prop :=
  m.Pairwise (fun c d => c.1 < d.1) ∧ ∀ c ∈ m, c.1 < 65536 ∧ c.2 ≠ 0#16

/-- The state: the spec's tuple `x`, `ic`, `ir`, `M`, `flt` (10_state.md section 1), with the instance's fixed configuration
(log 3), the host's operations not yet performed (log 2) and the last operation's output (log 10). -/
@[ext]
structure State where
  /-- The configuration of the instance (R65: fixed, not state). -/
  cfg : Config
  /-- The general registers R0 to R15 (R7). -/
  x : Vector Word 16
  /-- The instruction counter (R11). -/
  ic : Word
  /-- The current-instruction-word latch; `none` is UNSET (R13). -/
  ir : Option Word
  /-- The paged memory (R23, R24). -/
  mem : Memory
  /-- The model-only fault record (R56). -/
  flt : Option Fault
  /-- The host's operations not yet performed, oldest first (R15, R21). -/
  pending : List HostOp
  /-- The output of the last operation performed. -/
  out : Output
  deriving DecidableEq, Repr

/-- The machine right after `ColdReset` (R65), in the default configuration, with no operation pending (R67). -/
def State.reset : State where
  cfg := Config.default
  x := Vector.replicate 16 0#16
  ic := 0#16
  ir := none
  mem := []
  flt := none
  pending := []
  out := .nothing

end Sys2Proof.Machine
end

