-- ==== Sys2Proof/Machine/Ops.lean ====
section
/-! DEFINITION. The named operations over registers, memory, the counter, the latch and the fault record, each in one place. -/

namespace Sys2Proof.Machine

/-! ## Paged memory (spec/20_memory.md R24 to R26) -/

/-- The page of an address: its high byte (R24). -/
def pageOf (a : Word) : BitVec 8 := a.extractLsb' 8 8

/-- The offset of an address within its page: its low byte (R24). -/
def offsetOf (a : Word) : BitVec 8 := a.extractLsb' 0 8

/-- The place of a cell in the grid of 256 pages of 256 cells. -/
def cellKey (a : Word) : Nat := (pageOf a).toNat * 256 + (offsetOf a).toNat

/-- The word at a place; an unlisted cell reads 0x0000 (R65). -/
def Memory.read : Memory → Nat → Word
  | [], _ => 0#16
  | c :: m, k => if c.1 = k then c.2 else Memory.read m k

/-- The memory without the cell at a place. -/
def Memory.erase (m : Memory) (k : Nat) : Memory := m.filter (fun c => c.1 ≠ k)

/-- A cell put at its rising place. -/
def Memory.insert (k : Nat) (v : Word) : Memory → Memory
  | [] => [(k, v)]
  | c :: m => if k < c.1 then (k, v) :: c :: m else c :: Memory.insert k v m

/-- The memory with one cell set, in canonical form: a zero cell is not listed. -/
def Memory.write (m : Memory) (k : Nat) (v : Word) : Memory :=
  if v = 0#16 then Memory.erase m k else Memory.insert k v (Memory.erase m k)

/-- `MemRead(a, 1)`: the word `M[a]`; no state changes (R25). -/
def State.memRead (s : State) (a : Word) : Word := Memory.read s.mem (cellKey a)

/-- `MemWrite(a, 1, v)`: sets `M[a]` and changes nothing else (R26). -/
def State.memWrite (s : State) (a : Word) (v : Word) : State :=
  { s with mem := Memory.write s.mem (cellKey a) v }

/-! ## Register file (spec/10_state.md R7, R11, R12) -/

/-- `x[i]`. -/
def State.readReg (s : State) (i : RegIdx) : Word := s.x[i]

/-- `x[i] <- v`; no register is hardwired (R7). -/
def State.writeReg (s : State) (i : RegIdx) (v : Word) : State := { s with x := s.x.set i v }

/-- `ic <- word(unsigned(ic) + 1)` (R12). -/
def State.advanceIc (s : State) : State := { s with ic := BitVec.ofNat 16 (s.ic.toNat + 1) }

/-- `ic <- 0x0000` (R17). -/
def State.clearIc (s : State) : State := { s with ic := 0#16 }

/-- All 16 registers and `ic` to zero; memory, `ir` and `flt` keep their values (R66). -/
def State.clearRegFile (s : State) : State := { s with x := Vector.replicate 16 0#16, ic := 0#16 }

/-! ## Latch, output and fault record (R13, R15, R56) -/

/-- `ir <- w` (R18). -/
def State.latch (s : State) (w : Word) : State := { s with ir := some w }

/-- The operation's output. -/
def State.emit (s : State) (o : Output) : State := { s with out := o }

/-- `raise f`: the invocation ends, the fault is recorded, no register, no cell, not `ic` and not `ir` changes (R56). -/
def State.raise (s : State) (f : Fault) : State := { s with flt := some f, out := .fault f }

/-- An operation refused while `flt` is set: nothing of the core changes (R56). -/
def State.refuse (s : State) : State := { s with out := .refused }

/-- The gate every operation but `ColdReset` passes: while `flt` is set it is refused, else it gives `t` (R56). -/
def State.unlessStuck (s t : State) : State :=
  match s.flt with
  | none => t
  | some _ => s.refuse

/-- Every state element to its reset value (R65); the configuration is fixed for the instance, and what the host will do
next is not the core's (log 13). -/
def State.coldReset (s : State) : State := { State.reset with cfg := s.cfg, pending := s.pending }

/-- The state without its oldest pending operation. -/
def State.dequeue (s : State) : State := { s with pending := s.pending.tail }

end Sys2Proof.Machine
end

