-- ==== Sys2Proof/Machine/Operands.lean ====
section
/-! DEFINITION. The one operand form, base plus unsigned displacement (spec/20_memory.md R29 to R31), and the frame of an
invocation around a handler's body (spec/10_state.md R19). -/

namespace Sys2Proof.Machine

/-- `word(n)`: the word whose unsigned value is `n mod 2^16` (spec/00_scope.md section 4). -/
def word (n : Int) : Word := BitVec.ofInt 16 n

/-- `unsigned(w)`. -/
def unsigned {n : Nat} (w : BitVec n) : Int := w.toNat

/-- `signed(w)`. -/
def signed (w : Word) : Int := w.toInt

/-- `sext_16(w)`, the identity on 16-bit words (spec/90_conflicts.md C8). -/
def sext16 (w : Word) : Word := w.signExtend 16

/-- `zext_16(d)` of a displacement (R40). -/
def zext16 (d : Disp) : Word := d.zeroExtend 16

/-- `Resolve`: the base register as unsigned plus the zero-extended displacement, modulo 2^16 (R29). -/
def State.resolve (s : State) (br : BaseSel) (disp : Disp) : Word :=
  word (unsigned (s.readReg (BaseMap.reg s.cfg.baseMap br)) + unsigned (zext16 disp))

/-- `ea2 = word(unsigned(ea) + 1)`, the second cell of a double-word access (R31). -/
def secondCell (ea : Word) : Word := word (unsigned ea + 1)

/-- The memory operand of a single-word handler: `sext_16(MemRead(ea, 1))` (R48 to R51). -/
def State.memOperand (s : State) (ea : Word) : Word := sext16 (s.memRead ea)

/-- Whether an invocation would raise `IcOverflow` (R12, R56). -/
abbrev State.icOverflows (s : State) : Prop := s.ic = 0xFFFF#16 ∧ s.cfg.icOverflow = .fault

/-- One invocation of a handler (R19), in the order of R56 and R57: refused while `flt` is set; `IrUnset` while the host has
written no instruction word; `IcOverflow` before anything changes; else the address is formed once from the state before, the
handler's body runs, `ic` advances and the completion code goes out. The first check, `NoHandler`, stands in `State.invoke`. -/
def State.invocation (s : State) (h : Handler) (br : BaseSel) (disp : Disp) (body : Word → State → State) :
    Host.Outcome State Fault Refusal :=
  .next (s.unlessStuck
    (if s.ir = none then s.raise .irUnset
     else if s.icOverflows then s.raise (.icOverflow s.ic)
     else ((body (s.resolve br disp) s).advanceIc).emit (.code h)))

end Sys2Proof.Machine
end

