-- ==== Sys2Proof/Machine/Arithmetic.lean ====
section
/-! DEFINITION. AB, SBB and MB (spec/40_arithmetic.md R48 to R50): exact integer arithmetic, narrowed to 16 bits at the end.
No flag is written (R14). -/

namespace Sys2Proof.Machine

/-- `word(signed(a) + signed(b))` (R48). -/
def aluAdd (a b : Word) : Word := word (signed a + signed b)

/-- `word(signed(a) - signed(b))` (R49). -/
def aluSub (a b : Word) : Word := word (signed a - signed b)

/-- `word(signed(a) * signed(b))`: the low 16 bits of the exact product (R50). -/
def aluMul (a b : Word) : Word := word (signed a * signed b)

/-- `x[rd] <- f(x[rd], memory operand)`, the datapath the three arithmetic handlers share (R46). -/
def State.aluInto (s : State) (f : Word → Word → Word) (rd : RegIdx) (ea : Word) : State :=
  s.writeReg rd (f (s.readReg rd) (s.memOperand ea))

/-- Add-Base (R48). -/
def execAb (rd : RegIdx) (br : BaseSel) (disp : Disp) (s : State) : Host.Outcome State Fault Refusal :=
  s.invocation .ab br disp (fun ea s => s.aluInto aluAdd rd ea)

/-- Subtract-Base: `Rd` minus memory, never the reverse (R49). -/
def execSbb (rd : RegIdx) (br : BaseSel) (disp : Disp) (s : State) : Host.Outcome State Fault Refusal :=
  s.invocation .sbb br disp (fun ea s => s.aluInto aluSub rd ea)

/-- Multiply-Base (R50). -/
def execMb (rd : RegIdx) (br : BaseSel) (disp : Disp) (s : State) : Host.Outcome State Fault Refusal :=
  s.invocation .mb br disp (fun ea s => s.aluInto aluMul rd ea)

end Sys2Proof.Machine
end

