-- ==== Sys2Proof/Machine/LoadStore.lean ====
section
/-! DEFINITION. LB, DLB, STB and DSTB (spec/41_load_store.md R51 to R54). -/

namespace Sys2Proof.Machine

/-- `ExecDLB`: both cells are read before R0 and R1 are written (R52, R69). -/
def State.loadPair (s : State) (ea : Word) : State :=
  let v0 := s.memRead ea
  let v1 := s.memRead (secondCell ea)
  (s.writeReg 0 v0).writeReg 1 v1

/-- `ExecDSTB`: R0 to `ea`, R1 to `ea2` (R54). -/
def State.storePair (s : State) (ea : Word) : State :=
  let v0 := s.readReg 0
  let v1 := s.readReg 1
  (s.memWrite ea v0).memWrite (secondCell ea) v1

/-- Load-Base (R51). -/
def execLb (rd : RegIdx) (br : BaseSel) (disp : Disp) (s : State) : Host.Outcome State Fault Refusal :=
  s.invocation .lb br disp (fun ea s => s.writeReg rd (s.memOperand ea))

/-- Double-Load-Base (R52). -/
def execDlb (br : BaseSel) (disp : Disp) (s : State) : Host.Outcome State Fault Refusal :=
  s.invocation .dlb br disp (fun ea s => s.loadPair ea)

/-- Store-Base (R53). -/
def execStb (rd : RegIdx) (br : BaseSel) (disp : Disp) (s : State) : Host.Outcome State Fault Refusal :=
  s.invocation .stb br disp (fun ea s => s.memWrite ea (s.readReg rd))

/-- Double-Store-Base (R54). -/
def execDstb (br : BaseSel) (disp : Disp) (s : State) : Host.Outcome State Fault Refusal :=
  s.invocation .dstb br disp (fun ea s => s.storePair ea)

end Sys2Proof.Machine
end

