-- ==== Sys2Proof/Machine/Dispatch.lean ====
section
/-! DEFINITION. The handler table: one arm per instruction (spec/10_state.md R19, spec/30_encoding.md R42). -/

namespace Sys2Proof.Machine

def exec (i : Instr) (s : State) : Host.Outcome State Fault Refusal :=
  match i with
  | .ab rd br disp => Sys2Proof.Machine.execAb rd br disp s
  | .sbb rd br disp => Sys2Proof.Machine.execSbb rd br disp s
  | .mb rd br disp => Sys2Proof.Machine.execMb rd br disp s
  | .lb rd br disp => Sys2Proof.Machine.execLb rd br disp s
  | .dlb br disp => Sys2Proof.Machine.execDlb br disp s
  | .stb rd br disp => Sys2Proof.Machine.execStb rd br disp s
  | .dstb br disp => Sys2Proof.Machine.execDstb br disp s

end Sys2Proof.Machine
end

