-- ==== Sys2Proof/Machine/Interface.lean ====
section
/-! DEFINITION. The block interface (spec/10_state.md R15 to R20): what each operation of the host does. Every operation but
`ColdReset` is refused while a fault is recorded (spec/60_exceptions.md R56). -/

namespace Sys2Proof.Machine

/-- `HostRegRead(i)` (R16). -/
def State.hostRegRead (i : RegIdx) (s : State) : State := s.unlessStuck (s.emit (.word (s.readReg i)))

/-- `HostRegWrite(i, v)` (R16). -/
def State.hostRegWrite (i : RegIdx) (v : Word) (s : State) : State :=
  s.unlessStuck ((s.writeReg i v).emit .nothing)

/-- `HostIcRead()` (R17). -/
def State.hostIcRead (s : State) : State := s.unlessStuck (s.emit (.word s.ic))

/-- `HostIcReset()` (R17). -/
def State.hostIcReset (s : State) : State := s.unlessStuck (s.clearIc.emit .nothing)

/-- `HostSetInstr(w)`; the word is not checked (R18). -/
def State.hostSetInstr (w : Word) (s : State) : State := s.unlessStuck ((s.latch w).emit .nothing)

/-- `HostMemRead(a)` (R27). -/
def State.hostMemRead (a : Word) (s : State) : State := s.unlessStuck (s.emit (.word (s.memRead a)))

/-- `HostMemWrite(a, v)` (R27). -/
def State.hostMemWrite (a : Word) (v : Word) (s : State) : State :=
  s.unlessStuck ((s.memWrite a v).emit .nothing)

/-- `RegFileReset()` (R66). -/
def State.hostRegFileReset (s : State) : State := s.unlessStuck (s.clearRegFile.emit .nothing)

/-- `Invoke(op_sel, rd)` (R19): `NoHandler` first, else the selected handler on the latched word. While `ir` is UNSET there is no
word to take BR and DISP from, and the invocation raises `IrUnset` before it uses them, so the word given there has no effect. -/
def State.invoke (opSel : OpSel) (rd : RegIdx) (s : State) : Host.Outcome State Fault Refusal :=
  match Handler.ofOpSel opSel with
  | none => .next (s.unlessStuck (s.raise (.noHandler opSel)))
  | some h => exec (h.instr rd (s.ir.getD 0#16)) s

/-- One word of a program: the reference decode reads it, the host latches it and invokes what the decode gives; a reserved
word is refused by name and never invoked (R44, R45; spec/95_test_vectors.md section 3). -/
def State.feed (w : Word) (s : State) : Host.Outcome State Fault Refusal :=
  match decode s.cfg.opcode6 w with
  | .reserved opc => .refused (.reservedOpcode opc)
  | .instr i => exec i (s.hostSetInstr w)

/-- One operation of the host, run to completion (R15, R21). -/
def State.perform (op : HostOp) (s : State) : Host.Outcome State Fault Refusal :=
  match op with
  | .regRead i => .next (s.hostRegRead i)
  | .regWrite i v => .next (s.hostRegWrite i v)
  | .icRead => .next s.hostIcRead
  | .icReset => .next s.hostIcReset
  | .setInstr w => .next (s.hostSetInstr w)
  | .memRead a => .next (s.hostMemRead a)
  | .memWrite a v => .next (s.hostMemWrite a v)
  | .invoke opSel rd => s.invoke opSel rd
  | .coldReset => .next s.coldReset
  | .regFileReset => .next s.hostRegFileReset
  | .feed w => s.feed w

end Sys2Proof.Machine
end

