-- ==== Sys2Proof/Machine/Step.lean ====
section
/-! DEFINITION. One step: the oldest pending operation of the host runs to completion (spec/10_state.md R21); with none pending
the core is idle and keeps all state (spec/60_exceptions.md R64, spec/70_reset_and_hazards.md R67). -/

namespace Sys2Proof.Machine

/-- One step of the machine. -/
def step (s : State) : Host.Outcome State Fault Refusal :=
  match s.pending with
  | [] => .next s
  | op :: _ => s.dequeue.perform op

/-- The state in which the host's next operation feeds the given instruction word (log 11). -/
def State.withFetchWord (s : State) (nbits w : Nat) : State :=
  { s with pending := .feed (tableWord nbits w) :: s.pending }

end Sys2Proof.Machine
end

