-- ==== Sys2Proof/Safety.lean ====
section
/-! DEFINITION. What counts as a sound state and a safe run, in the terms claims use. -/

namespace Sys2Proof.Machine

/-- A recorded fault tells the truth about the state it froze (spec/60_exceptions.md R56): `NoHandler` was raised by the one
`op_sel` value without a handler, `IrUnset` with the latch still UNSET, `IcOverflow` at the counter it records, which is the
top, under `IC_OVERFLOW = fault`. -/
def State.FaultRecordTrue (s : State) : Prop :=
  match s.flt with
  | none => True
  | some (.noHandler o) => o = 0b111
  | some .irUnset => s.ir = none
  | some (.icOverflow c) => c = s.ic ∧ c = 0xFFFF#16 ∧ s.cfg.icOverflow = .fault

/-- The invariant of the machine: memory in canonical form, an admitted configuration, a truthful fault record. -/
structure State.Inv (s : State) : Prop where
  mem : Memory.wf s.mem
  cfg : s.cfg.wellFormed = true
  flt : s.FaultRecordTrue

/-- The conditions under which an invocation completes (spec/10_state.md R19: "with a valid `op_sel`, a set `ir` and
`IC_OVERFLOW = wrap`, no invocation fails"; R56): no fault recorded, a word latched, and no counter overflow that faults. -/
abbrev State.Ready (s : State) : Prop := s.flt = none ∧ s.ir ≠ none ∧ ¬ s.icOverflows

/-- A state may end a run only with no fault recorded (R56: "a state with `flt` set is never a final state of a run"). -/
def State.MayEnd (s : State) : Prop := s.flt = none

/-- A run of `k` operations from `s` that no fault and no refusal disturbs. -/
def SafeRun (k : Nat) (s : State) : Prop :=
  ∃ t, Host.Core.run Sys2Proof.core k s = .next t ∧ State.MayEnd t

end Sys2Proof.Machine
end

