-- ==== Sys2Proof/Certificates/Slice0/Obligations.lean ====
section
/-! DEFINITION. The statements for the provers. Each docstring names the rule of spec/ it formalises. Where a statement speaks of the
host, its next operation is the head of `pending` (log 2) and an operation's output stands in `out` (log 10); both are the model's
way to hold what spec/10_state.md R15 calls inputs and outputs. -/

open Sys2Proof Sys2Proof.Machine

/-! ## Encoding, decoding, selection -/

/-- Words the spec writes out (the examples of spec/40_arithmetic.md and spec/41_load_store.md, `MB R15, 0` of
spec/95_test_vectors.md P3) decode to the instruction they stand for, and the first reserved opcode to none. The opcode values
are the default of `OPCODE6` (log 5). -/
def Obligations.WrittenWordsDecode : Prop :=
  decodeTableWord 16 0x107F = some (.ab 2 0 0x7F) ∧ decodeTableWord 16 0x1405 = some (.sbb 2 0 5) ∧
  decodeTableWord 16 0x1B00 = some (.mb 2 3 0) ∧ decodeTableWord 16 0x0210 = some (.lb 2 2 0x10) ∧
  decodeTableWord 16 0x0500 = some (.dlb 1 0) ∧ decodeTableWord 16 0x0B20 = some (.stb 2 3 0x20) ∧
  decodeTableWord 16 0x0C0F = some (.dstb 0 0x0F) ∧ decodeTableWord 16 0x1C00 = none

/-- spec/30_encoding.md R44, R45: under the default table every word belongs to the row whose `w & mask` is its `match`, with
`rd = 2`, and to none if no row matches (log 5: the values are the spec's default, from general knowledge). -/
def Obligations.ReferenceDecodeFollowsTheTable : Prop :=
  ∀ w : Word, decode Opcode6.reference w =
    if w &&& 0xFC00#16 = 0x1000#16 then .instr (.ab 2 (w.extractLsb' 8 2) (w.extractLsb' 0 8))
    else if w &&& 0xFC00#16 = 0x1400#16 then .instr (.sbb 2 (w.extractLsb' 8 2) (w.extractLsb' 0 8))
    else if w &&& 0xFC00#16 = 0x1800#16 then .instr (.mb 2 (w.extractLsb' 8 2) (w.extractLsb' 0 8))
    else if w &&& 0xFC00#16 = 0x0000#16 then .instr (.lb 2 (w.extractLsb' 8 2) (w.extractLsb' 0 8))
    else if w &&& 0xFC00#16 = 0x0400#16 then .instr (.dlb (w.extractLsb' 8 2) (w.extractLsb' 0 8))
    else if w &&& 0xFC00#16 = 0x0800#16 then .instr (.stb 2 (w.extractLsb' 8 2) (w.extractLsb' 0 8))
    else if w &&& 0xFC00#16 = 0x0C00#16 then .instr (.dstb (w.extractLsb' 8 2) (w.extractLsb' 0 8))
    else .reserved (w.extractLsb' 10 6)

/-- Decoding undoes encoding, for every well-formed instruction, every operand value and every `OPCODE6` whose values differ
(spec/30_encoding.md R38, R44). -/
def Obligations.DecodeOfEncodeIsTheInstruction : Prop :=
  ∀ (t : Opcode6) (i : Instr), t.distinct = true → i.wellFormed = true → decode t (encode t i) = .instr i

/-- Encoding undoes decoding: each word has one meaning and loses no bit, under every `OPCODE6`. -/
def Obligations.EncodeOfDecodeIsTheWord : Prop :=
  ∀ (t : Opcode6) (w : Word) (i : Instr), decode t w = .instr i → i.wellFormed = true ∧ encode t i = w

/-- spec/30_encoding.md R45: a word whose opcode is in no row is refused by name and nothing is invoked (as the step's
refusal, fault recorded or not: log 12). -/
def Obligations.ReservedWordsAreRefusedByName : Prop :=
  ∀ (s : State) (w : Word) (rest : List HostOp), s.pending = .feed w :: rest →
    (∀ h : Handler, s.cfg.opcode6.of h ≠ opcodeOf w) → step s = .refused (.reservedOpcode (opcodeOf w))

/-- spec/30_encoding.md R47: `MN Rb, disp` assembles exactly when `Rb` is a base register and `disp` is at most 255, and its word
decodes to that handler on that base register and displacement (log 14: the abstract form of the syntax). -/
def Obligations.AssembledWordDecodesToItsOperands : Prop :=
  ∀ (c : Config) (h : Handler) (rb : RegIdx) (disp : Nat), c.wellFormed = true →
    ((assemble c h rb disp).isSome = true ↔ rb ∈ c.baseMap.toList ∧ disp ≤ 255) ∧
    ∀ w, assemble c h rb disp = some w →
      ∃ i, decode c.opcode6 w = .instr i ∧ i.handler = h ∧ i.wellFormed = true ∧
        BaseMap.reg c.baseMap i.br = rb ∧ i.disp.toNat = disp

/-- spec/30_encoding.md R42: `op_sel` selects the handler, by the table of seven values. The handler runs on BR and DISP of the
latched word and the `rd` input. 0b111 selects none and raises `NoHandler` (spec/60_exceptions.md R56); that the fault is recorded
in a NEXT state, with the fault as output, is the model's choice (log 8, log 10). -/
def Obligations.InvokeRunsTheSelectedHandler : Prop :=
  ∀ (s : State) (o : OpSel) (rd : RegIdx) (rest : List HostOp) (w : Word),
    s.flt = none → s.ir = some w → s.pending = .invoke o rd :: rest →
    step s =
      if o = 0b000#3 then exec (.ab rd (w.extractLsb' 8 2) (w.extractLsb' 0 8)) { s with pending := rest }
      else if o = 0b001#3 then exec (.sbb rd (w.extractLsb' 8 2) (w.extractLsb' 0 8)) { s with pending := rest }
      else if o = 0b010#3 then exec (.mb rd (w.extractLsb' 8 2) (w.extractLsb' 0 8)) { s with pending := rest }
      else if o = 0b011#3 then exec (.lb rd (w.extractLsb' 8 2) (w.extractLsb' 0 8)) { s with pending := rest }
      else if o = 0b100#3 then exec (.dlb (w.extractLsb' 8 2) (w.extractLsb' 0 8)) { s with pending := rest }
      else if o = 0b101#3 then exec (.stb rd (w.extractLsb' 8 2) (w.extractLsb' 0 8)) { s with pending := rest }
      else if o = 0b110#3 then exec (.dstb (w.extractLsb' 8 2) (w.extractLsb' 0 8)) { s with pending := rest }
      else .next { s with pending := rest, flt := some (.noHandler o), out := .fault (.noHandler o) }

/-- spec/30_encoding.md R41: two latched words that agree below bit 10 give the same invocation, whatever their opcode fields; only the
latch's own value differs after it. -/
def Obligations.OpcodeFieldOfTheLatchIsNotRead : Prop :=
  ∀ (s t : State) (w w' : Word) (o : OpSel) (rd : RegIdx) (rest : List HostOp),
    w.extractLsb' 0 10 = w'.extractLsb' 0 10 → s.pending = .invoke o rd :: rest →
    step { s with ir := some w } = .next t → step { s with ir := some w' } = .next { t with ir := some w' }

/-- spec/30_encoding.md R43: DLB and DSTB ignore `rd`. -/
def Obligations.DoubleHandlersIgnoreRd : Prop :=
  ∀ (s : State) (o : OpSel) (rd rd' : RegIdx) (rest : List HostOp), o = 0b100#3 ∨ o = 0b110#3 →
    step { s with pending := .invoke o rd :: rest } = step { s with pending := .invoke o rd' :: rest }

/-! ## Address resolution and the paged memory -/

/-- spec/20_memory.md R29, spec/30_encoding.md R39 and R40: the base selector is bits 9:8, the displacement bits 7:0 and never
negative, and the address is the base register as unsigned plus the displacement modulo 2^16, with no part for bits 15:10. -/
def Obligations.EffectiveAddressIsBasePlusDisplacement : Prop :=
  ∀ (s : State) (w : Word),
    (baseSelOf w).toNat = w.toNat / 256 % 4 ∧ (dispOf w).toNat = w.toNat % 256 ∧
    (s.resolve (baseSelOf w) (dispOf w)).toNat =
      ((s.readReg (BaseMap.reg s.cfg.baseMap (baseSelOf w))).toNat + w.toNat % 256) % 65536

/-- spec/10_state.md R9: selector s names R(12+s) under the default map (log 4) and R(s) under the alternative the spec admits. -/
def Obligations.BaseSelectorNamesItsRegister : Prop :=
  ∀ (s : State) (br : BaseSel) (disp : Disp),
    (s.cfg.baseMap = BaseMap.high → s.resolve br disp = s.readReg (Fin.ofNat 16 (12 + br.toNat)) + disp.zeroExtend 16) ∧
    (s.cfg.baseMap = BaseMap.low → s.resolve br disp = s.readReg (Fin.ofNat 16 br.toNat) + disp.zeroExtend 16)

/-- spec/20_memory.md R24: page and offset are the two bytes of the address, each pair of them names one address, and the paged
memory reads as a flat array. -/
def Obligations.PagedMemoryIsAFlatArray : Prop :=
  (∀ a : Word, (pageOf a).toNat = a.toNat / 256 ∧ (offsetOf a).toNat = a.toNat % 256) ∧
  (∀ p o : BitVec 8, ∃ a : Word, (pageOf a = p ∧ offsetOf a = o) ∧ ∀ b, pageOf b = p ∧ offsetOf b = o → b = a) ∧
  ∀ (s : State) (a : Word), s.memRead a = Memory.read s.mem a.toNat

/-- Equal memories are equal data: two memories in canonical form that read alike everywhere are the same list (log 1). -/
def Obligations.CanonicalMemoriesReadingAlikeAreEqual : Prop :=
  ∀ m m' : Memory, Memory.wf m → Memory.wf m' → (∀ k, Memory.read m k = Memory.read m' k) → m = m'

/-! ## What each instruction does -/

/-- spec/40_arithmetic.md R48: AB's encodings, and its effect whenever an invocation completes: `Rd` receives the sum modulo 2^16,
the counter advances, the code is CC_AB, and nothing else of the state changes. -/
def Obligations.AbAddsTheOperandToRd : Prop :=
  Handler.ofOpSel 0b000#3 = some .ab ∧
  (∀ (br : BaseSel) (disp : Disp), decode Opcode6.reference (0b000100#6 ++ br ++ disp) = .instr (.ab 2 br disp)) ∧
  ∀ (rd : RegIdx) (br : BaseSel) (disp : Disp) (s : State), s.Ready →
    ∃ v : Word, v.toInt = ((s.readReg rd).toInt + (s.memRead (s.resolve br disp)).toInt).bmod 65536 ∧
      exec (.ab rd br disp) s = .next { s with x := s.x.set rd v, ic := s.ic + 1#16, out := .code .ab }

/-- spec/40_arithmetic.md R49: SBB's encodings and effect: `Rd` minus the operand, modulo 2^16. -/
def Obligations.SbbSubtractsTheOperandFromRd : Prop :=
  Handler.ofOpSel 0b001#3 = some .sbb ∧
  (∀ (br : BaseSel) (disp : Disp), decode Opcode6.reference (0b000101#6 ++ br ++ disp) = .instr (.sbb 2 br disp)) ∧
  ∀ (rd : RegIdx) (br : BaseSel) (disp : Disp) (s : State), s.Ready →
    ∃ v : Word, v.toInt = ((s.readReg rd).toInt - (s.memRead (s.resolve br disp)).toInt).bmod 65536 ∧
      exec (.sbb rd br disp) s = .next { s with x := s.x.set rd v, ic := s.ic + 1#16, out := .code .sbb }

/-- spec/40_arithmetic.md R50: MB's encodings and effect: the low 16 bits of the exact signed product; the high half is kept nowhere. -/
def Obligations.MbKeepsTheLowProductInRd : Prop :=
  Handler.ofOpSel 0b010#3 = some .mb ∧
  (∀ (br : BaseSel) (disp : Disp), decode Opcode6.reference (0b000110#6 ++ br ++ disp) = .instr (.mb 2 br disp)) ∧
  ∀ (rd : RegIdx) (br : BaseSel) (disp : Disp) (s : State), s.Ready →
    ∃ v : Word, v.toInt = ((s.readReg rd).toInt * (s.memRead (s.resolve br disp)).toInt).bmod 65536 ∧
      exec (.mb rd br disp) s = .next { s with x := s.x.set rd v, ic := s.ic + 1#16, out := .code .mb }

/-- spec/41_load_store.md R51: LB's encodings and effect: `Rd` receives the cell at the address. -/
def Obligations.LbLoadsTheCellIntoRd : Prop :=
  Handler.ofOpSel 0b011#3 = some .lb ∧
  (∀ (br : BaseSel) (disp : Disp), decode Opcode6.reference (0b000000#6 ++ br ++ disp) = .instr (.lb 2 br disp)) ∧
  ∀ (rd : RegIdx) (br : BaseSel) (disp : Disp) (s : State), s.Ready →
    exec (.lb rd br disp) s =
      .next { s with x := s.x.set rd (s.memRead (s.resolve br disp)), ic := s.ic + 1#16, out := .code .lb }

/-- spec/41_load_store.md R52: DLB's encodings and effect: R0 from the cell at the address, R1 from the next cell modulo 2^16, both
read before either is written. -/
def Obligations.DlbLoadsTheFixedPair : Prop :=
  Handler.ofOpSel 0b100#3 = some .dlb ∧
  (∀ (br : BaseSel) (disp : Disp), decode Opcode6.reference (0b000001#6 ++ br ++ disp) = .instr (.dlb br disp)) ∧
  ∀ (br : BaseSel) (disp : Disp) (s : State), s.Ready →
    exec (.dlb br disp) s =
      .next { s with
        x := (s.x.set 0 (s.memRead (s.resolve br disp))).set 1 (s.memRead (s.resolve br disp + 1#16)),
        ic := s.ic + 1#16, out := .code .dlb }

/-- spec/41_load_store.md R53: STB's encodings and effect: the cell at the address receives `Rd`, every other cell and every register
stays. -/
def Obligations.StbStoresRd : Prop :=
  Handler.ofOpSel 0b101#3 = some .stb ∧
  (∀ (br : BaseSel) (disp : Disp), decode Opcode6.reference (0b000010#6 ++ br ++ disp) = .instr (.stb 2 br disp)) ∧
  ∀ (rd : RegIdx) (br : BaseSel) (disp : Disp) (s : State), s.Ready →
    ∃ t, exec (.stb rd br disp) s = .next t ∧
      (∀ a, t.memRead a = if a = s.resolve br disp then s.readReg rd else s.memRead a) ∧
      t = { s with mem := t.mem, ic := s.ic + 1#16, out := .code .stb }

/-- spec/41_load_store.md R54: DSTB's encodings and effect: R0 to the cell at the address, R1 to the next cell modulo 2^16, every other
cell and every register stays. -/
def Obligations.DstbStoresTheFixedPair : Prop :=
  Handler.ofOpSel 0b110#3 = some .dstb ∧
  (∀ (br : BaseSel) (disp : Disp), decode Opcode6.reference (0b000011#6 ++ br ++ disp) = .instr (.dstb br disp)) ∧
  ∀ (br : BaseSel) (disp : Disp) (s : State), s.Ready →
    ∃ t, exec (.dstb br disp) s = .next t ∧
      (∀ a, t.memRead a = if a = s.resolve br disp then s.readReg 0
        else if a = s.resolve br disp + 1#16 then s.readReg 1 else s.memRead a) ∧
      t = { s with mem := t.mem, ic := s.ic + 1#16, out := .code .dstb }

/-- spec/40_arithmetic.md, the integer laws common to the family: the results are the same with the operands read as unsigned. -/
def Obligations.AluIsTheSameForUnsignedOperands : Prop :=
  ∀ a b : Word, (aluAdd a b).toNat = (a.toNat + b.toNat) % 65536 ∧
    (aluSub a b).toNat = (a.toNat + 65536 - b.toNat) % 65536 ∧ (aluMul a b).toNat = a.toNat * b.toNat % 65536

/-! ## Frames: what an instruction leaves unchanged, on every path that gives a next state -/

/-- spec/30_encoding.md R46: AB, SBB, MB and LB write no register but `Rd`, no cell, and neither the latch nor the configuration. -/
def Obligations.RegisterWritersFrame : Prop :=
  ∀ (rd : RegIdx) (br : BaseSel) (disp : Disp) (s t : State),
    (exec (.ab rd br disp) s = .next t ∨ exec (.sbb rd br disp) s = .next t ∨
      exec (.mb rd br disp) s = .next t ∨ exec (.lb rd br disp) s = .next t) →
    (∀ r, r ≠ rd → t.readReg r = s.readReg r) ∧ (∀ a, t.memRead a = s.memRead a) ∧
    t.ir = s.ir ∧ t.cfg = s.cfg ∧ t.pending = s.pending

/-- spec/30_encoding.md R46: DLB writes no register but R0 and R1, no cell, and neither the latch nor the configuration. -/
def Obligations.DlbFrame : Prop :=
  ∀ (br : BaseSel) (disp : Disp) (s t : State), exec (.dlb br disp) s = .next t →
    (∀ r, r ≠ 0 → r ≠ 1 → t.readReg r = s.readReg r) ∧ (∀ a, t.memRead a = s.memRead a) ∧
    t.ir = s.ir ∧ t.cfg = s.cfg ∧ t.pending = s.pending

/-- spec/30_encoding.md R46: STB writes no register and no cell but the one at its address, and neither the latch nor the configuration. -/
def Obligations.StbFrame : Prop :=
  ∀ (rd : RegIdx) (br : BaseSel) (disp : Disp) (s t : State), exec (.stb rd br disp) s = .next t →
    (∀ r, t.readReg r = s.readReg r) ∧ (∀ a, a ≠ s.resolve br disp → t.memRead a = s.memRead a) ∧
    t.ir = s.ir ∧ t.cfg = s.cfg ∧ t.pending = s.pending

/-- spec/30_encoding.md R46: DSTB writes no register and no cell but the two at its address, and neither the latch nor the configuration. -/
def Obligations.DstbFrame : Prop :=
  ∀ (br : BaseSel) (disp : Disp) (s t : State), exec (.dstb br disp) s = .next t →
    (∀ r, t.readReg r = s.readReg r) ∧
    (∀ a, a ≠ s.resolve br disp → a ≠ secondCell (s.resolve br disp) → t.memRead a = s.memRead a) ∧
    t.ir = s.ir ∧ t.cfg = s.cfg ∧ t.pending = s.pending

/-! ## Counter, completion code, faults -/

/-- spec/10_state.md R12: a completed invocation advances the counter by one modulo 2^16; at 0xFFFF under `IC_OVERFLOW = fault` it
raises `IcOverflow` before anything changes (recorded in a next state: log 8); an invocation that does not complete leaves the counter. -/
def Obligations.CompletedInvocationAdvancesTheCounter : Prop :=
  (∀ (i : Instr) (s : State), s.Ready →
    ∃ t, exec i s = .next t ∧ t.ic.toNat = (s.ic.toNat + 1) % 65536 ∧ t.flt = none) ∧
  (∀ (i : Instr) (s : State), s.flt = none → s.ir ≠ none → s.ic = 0xFFFF#16 → s.cfg.icOverflow = .fault →
    exec i s = .next { s with flt := some (.icOverflow 0xFFFF#16), out := .fault (.icOverflow 0xFFFF#16) }) ∧
  ∀ (i : Instr) (s t : State), ¬ s.Ready → exec i s = .next t → t.ic = s.ic

/-- spec/10_state.md R20: a completed invocation outputs the code of its handler, whose number is its `op_sel`; a faulted or refused
one outputs none (outputs stand in `out`: log 10). -/
def Obligations.CompletionCodeNamesTheHandler : Prop :=
  (∀ (i : Instr) (s t : State), exec i s = .next t → s.Ready → t.out = .code i.handler) ∧
  (∀ (i : Instr) (s t : State), exec i s = .next t → ¬ s.Ready → ∀ h, t.out ≠ .code h) ∧
  (Handler.ab.opSel = 0#3 ∧ Handler.sbb.opSel = 1#3 ∧ Handler.mb.opSel = 2#3 ∧ Handler.lb.opSel = 3#3 ∧
    Handler.dlb.opSel = 4#3 ∧ Handler.stb.opSel = 5#3 ∧ Handler.dstb.opSel = 6#3)

/-- spec/60_exceptions.md R57: `Invoke` reports the first fault in the order `NoHandler`, `IrUnset`, `IcOverflow`. By R56 it changes
nothing but the record; that the record stands in a NEXT state is the model's choice (log 8). Where none applies the invocation
completes (spec/10_state.md R19) with the code of its `op_sel` (R20; outputs: log 10). -/
def Obligations.FaultsAreReportedInOrder : Prop :=
  ∀ (s : State) (o : OpSel) (rd : RegIdx) (rest : List HostOp), s.flt = none → s.pending = .invoke o rd :: rest →
    if o = 0b111#3 then
      step s = .next { s with pending := rest, flt := some (.noHandler o), out := .fault (.noHandler o) }
    else if s.ir = none then
      step s = .next { s with pending := rest, flt := some .irUnset, out := .fault .irUnset }
    else if s.ic = 0xFFFF#16 ∧ s.cfg.icOverflow = .fault then
      step s = .next { s with pending := rest, flt := some (.icOverflow s.ic), out := .fault (.icOverflow s.ic) }
    else ∃ t h, step s = .next t ∧ t.flt = none ∧ t.out = .code h ∧ h.opSel = o

/-- Where an instruction traps instead of completing (spec/60_exceptions.md R56): refused while a fault is recorded (log 9), `IrUnset`
with no word latched (log 8). (`IcOverflow`: CompletedInvocationAdvancesTheCounter.) -/
def Obligations.InstructionIsRefusedOrUnset : Prop :=
  (∀ (i : Instr) (s : State) (f : Fault), s.flt = some f → exec i s = .next { s with out := .refused }) ∧
  ∀ (i : Instr) (s : State), s.flt = none → s.ir = none →
    exec i s = .next { s with flt := some .irUnset, out := .fault .irUnset }

/-- spec/60_exceptions.md R56: while a fault is recorded, every operation but `ColdReset` is refused and changes nothing (log 9: the
operation is consumed). A word the reference decode refuses is refused by name instead (log 12). -/
def Obligations.FaultedCoreRefusesEveryOperation : Prop :=
  ∀ (s : State) (f : Fault) (op : HostOp) (rest : List HostOp), s.flt = some f → s.pending = op :: rest →
    op ≠ .coldReset → (∀ w opc, op = .feed w → decode s.cfg.opcode6 w ≠ .reserved opc) →
    step s = .next { s with pending := rest, out := .refused }

/-- spec/60_exceptions.md R56: "`flt` is cleared only by `ColdReset`"; and until then no step changes the core (a refused
operation is consumed in a next state: log 9). -/
def Obligations.OnlyColdResetClearsAFault : Prop :=
  ∀ (s t : State) (f : Fault), s.flt = some f → step s = .next t →
    (∃ rest, s.pending = .coldReset :: rest) ∨
    (t.flt = some f ∧ t.x = s.x ∧ t.ic = s.ic ∧ t.ir = s.ir ∧ t.mem = s.mem)

/-- Where the model stops, over all steps. THE MODEL'S CHOICE, no rule of the spec: that no step answers `Host.Outcome.fault`, since a
model fault of spec/60_exceptions.md R56 is kept in `flt` in a next state (log 8), and that an operation refused while it stands there
is consumed in a next state (log 9). From spec/30_encoding.md R45 by inference (log 12): a step is refused only for a fed word that
the reference decode refuses. -/
def Obligations.OnlyReservedWordsStopTheMachine : Prop :=
  (∀ (s : State) (r : Fault), step s ≠ .fault r) ∧
  ∀ (s : State) (r : Refusal), step s = .refused r →
    ∃ w rest, s.pending = .feed w :: rest ∧ decode s.cfg.opcode6 w = .reserved (opcodeOf w) ∧ r = .reservedOpcode (opcodeOf w)

/-- spec/60_exceptions.md R61: with no fault recorded, every operation of the host is permitted. -/
def Obligations.NoOperationIsPrivileged : Prop :=
  ∀ (s t : State), s.flt = none → s.pending ≠ [] → step s = .next t → t.out ≠ .refused

/-! ## Invariants -/

/-- Every step keeps the invariant: memory in canonical form, an admitted configuration, a fault record that is true of the state it
froze (spec/60_exceptions.md R56, spec/10_state.md R9, log 1). -/
def Obligations.StepKeepsTheInvariant : Prop :=
  ∀ s t : State, s.Inv → step s = .next t → t.Inv

/-- The invariant holds after reset. -/
def Obligations.ResetHasTheInvariant : Prop := State.reset.Inv

/-- spec/70_reset_and_hazards.md R65: "`BASE_MAP`, `IC_OVERFLOW` and `OPCODE6` are configuration, fixed for the instance": no step
changes them (log 3). -/
def Obligations.ConfigurationIsFixed : Prop :=
  ∀ s t : State, step s = .next t → t.cfg = s.cfg

/-- spec/10_state.md R12, R17, over all operations: the counter stays, or advances by one with a completion code out, or is zero after
one of the three resets. -/
def Obligations.CounterMovesOnlyByCompletionOrReset : Prop :=
  ∀ s t : State, step s = .next t →
    t.ic = s.ic ∨ (t.ic = s.ic + 1#16 ∧ ∃ h, t.out = .code h) ∨
    (t.ic = 0#16 ∧ ∃ op rest, s.pending = op :: rest ∧ (op = .icReset ∨ op = .regFileReset ∨ op = .coldReset))

/-- spec/10_state.md R13, over all operations: only the host writes the latch; handlers never change it. -/
def Obligations.OnlyTheHostWritesTheLatch : Prop :=
  ∀ s t : State, step s = .next t →
    t.ir = s.ir ∨
    (∃ w rest, (s.pending = .setInstr w :: rest ∨ s.pending = .feed w :: rest) ∧ t.ir = some w) ∨
    (∃ rest, s.pending = .coldReset :: rest ∧ t.ir = none)

/-! ## Reset and the host's operations -/

/-- spec/70_reset_and_hazards.md R65: what `ColdReset` leaves, from every state, a faulted one too; and the state after reset has the
same values. -/
def Obligations.ColdResetLeavesResetValues : Prop :=
  (∀ (s : State) (rest : List HostOp), s.pending = .coldReset :: rest →
    ∃ t, step s = .next t ∧ (∀ r, t.readReg r = 0#16) ∧ t.ic = 0#16 ∧ (∀ a, t.memRead a = 0#16) ∧
      t.ir = none ∧ t.flt = none ∧ t.cfg = s.cfg) ∧
  (∀ r, State.reset.readReg r = 0#16) ∧ State.reset.ic = 0#16 ∧ (∀ a, State.reset.memRead a = 0#16) ∧
  State.reset.ir = none ∧ State.reset.flt = none

/-- spec/70_reset_and_hazards.md R66: `RegFileReset` zeroes the registers and the counter and changes nothing else (its output:
log 10). While a fault is recorded it is refused (spec/60_exceptions.md R56); that the refused operation is consumed in a NEXT state
with `refused` as output is the model's choice (log 9). -/
def Obligations.RegFileResetClearsRegistersAndCounter : Prop :=
  ∀ (s : State) (rest : List HostOp), s.pending = .regFileReset :: rest →
    (s.flt = none → ∃ t, step s = .next t ∧ (∀ r, t.readReg r = 0#16) ∧
      t = { s with x := t.x, ic := 0#16, pending := rest, out := .nothing }) ∧
    (∀ f, s.flt = some f → step s = .next { s with pending := rest, out := .refused })

/-- spec/10_state.md R16: a host register read returns `x[i]` and changes nothing; a write changes `x[i]` and nothing else. -/
def Obligations.HostRegisterAccess : Prop :=
  ∀ (s : State) (i : RegIdx) (v : Word) (rest : List HostOp), s.flt = none →
    (s.pending = .regRead i :: rest → step s = .next { s with pending := rest, out := .word (s.readReg i) }) ∧
    (s.pending = .regWrite i v :: rest → ∃ t, step s = .next t ∧
      (∀ r, t.readReg r = if r = i then v else s.readReg r) ∧ t = { s with x := t.x, pending := rest, out := .nothing })

/-- spec/10_state.md R17: the host reads the counter, or sets it to zero, and changes nothing else; no operation but a completed
invocation leaves any other value in it. -/
def Obligations.HostCounterAccess : Prop :=
  ∀ (s : State) (rest : List HostOp), s.flt = none →
    (s.pending = .icRead :: rest → step s = .next { s with pending := rest, out := .word s.ic }) ∧
    (s.pending = .icReset :: rest → step s = .next { s with ic := 0#16, pending := rest, out := .nothing }) ∧
    (∀ op t, s.pending = op :: rest → step s = .next t → t.ic = s.ic ∨ t.ic = 0#16 ∨ ∃ h, t.out = .code h)

/-- spec/10_state.md R18: `HostSetInstr(w)` latches any word, a reserved one too, and changes nothing else. -/
def Obligations.HostSetInstrLatchesAnyWord : Prop :=
  ∀ (s : State) (w : Word) (rest : List HostOp), s.flt = none → s.pending = .setInstr w :: rest →
    step s = .next { s with ir := some w, pending := rest, out := .nothing }

/-- spec/20_memory.md R27: the host memory port reads a cell and changes nothing, or writes a cell and changes nothing else. -/
def Obligations.HostMemoryPort : Prop :=
  ∀ (s : State) (a v : Word) (rest : List HostOp), s.flt = none →
    (s.pending = .memRead a :: rest → step s = .next { s with pending := rest, out := .word (s.memRead a) }) ∧
    (s.pending = .memWrite a v :: rest → ∃ t, step s = .next t ∧
      (∀ b, t.memRead b = if b = a then v else s.memRead b) ∧ t = { s with mem := t.mem, pending := rest, out := .nothing })

/-- spec/20_memory.md R36, R37: a store through the datapath port is seen by the next read of the cell through the host port. -/
def Obligations.HostReadSeesTheStore : Prop :=
  ∀ (s t : State) (rd : RegIdx) (br : BaseSel) (disp : Disp) (b : Word) (rest : List HostOp),
    s.Ready → s.pending = .memRead b :: rest → exec (.stb rd br disp) s = .next t →
    ∃ u, step t = .next u ∧
      u.out = .word (if b = s.resolve br disp then s.readReg rd else s.memRead b)

/-! ## Steps and runs -/

/-- A step runs the decoded instruction: where the host's next operation feeds a word that decodes, the step latches the word and is
`exec` of the instruction (spec/95_test_vectors.md section 3, log 11); so also after `withFetchWord`. -/
def Obligations.StepRunsTheFedInstruction : Prop :=
  (∀ (s : State) (w : Word) (i : Instr) (rest : List HostOp), s.flt = none → s.pending = .feed w :: rest →
    decode s.cfg.opcode6 w = .instr i → step s = exec i { s with pending := rest, ir := some w, out := .nothing }) ∧
  ∀ (s : State) (nbits w : Nat) (i : Instr), s.flt = none → decode s.cfg.opcode6 (tableWord nbits w) = .instr i →
    step (s.withFetchWord nbits w) = exec i { s with ir := some (tableWord nbits w), out := .nothing }

/-- Feeding a word is what the host's loop does in two operations: `HostSetInstr(w)`, then `Invoke` with the reference decode's
`op_sel` and `rd` (any `rd` where the handler ignores it; log 11): spec/30_encoding.md R44, spec/95_test_vectors.md section 3. -/
def Obligations.FeedIsSetInstrThenInvoke : Prop :=
  ∀ (s : State) (w : Word) (i : Instr) (rd : RegIdx) (rest : List HostOp), decode s.cfg.opcode6 w = .instr i →
    (∀ r, i.rd? = some r → rd = r) →
    ∃ t, step { s with pending := .setInstr w :: .invoke i.handler.opSel rd :: rest } = .next t ∧
      step t = step { s with pending := .feed w :: rest }

/-- Any sequence of fed words that decode runs to its end with no fault under `IC_OVERFLOW = wrap`, and the counter has advanced by
their number modulo 2^16 (spec/10_state.md R12, R19: no invocation fails). -/
def Obligations.FedWordsAllComplete : Prop :=
  ∀ (ws : List Word) (s : State), s.flt = none → s.cfg.icOverflow = .wrap → s.pending = ws.map HostOp.feed →
    (∀ w ∈ ws, ∃ i, decode s.cfg.opcode6 w = .instr i) →
    SafeRun ws.length s ∧
    ∃ t, Host.Core.run Sys2Proof.core ws.length s = .next t ∧ t.ic = s.ic + BitVec.ofNat 16 ws.length

/-- spec/60_exceptions.md R64, spec/70_reset_and_hazards.md R67: with no operation of the host the core is idle and keeps all
state, however often it is stepped. -/
def Obligations.IdleCoreKeepsItsState : Prop :=
  ∀ (s : State), s.pending = [] → ∀ k, Host.Core.run Sys2Proof.core k s = .next s

/-! ## What results depend on -/

/-- spec/00_scope.md R5: an instruction's results depend on nothing but the registers, the memory, the counter, the fault record, the
configuration and whether a word is latched: not on earlier outputs, not on what the host will do next. -/
def Obligations.ResultsDependOnCoreStateOnly : Prop :=
  ∀ (i : Instr) (s s' t t' : State), s.x = s'.x → s.mem = s'.mem → s.ic = s'.ic → s.flt = s'.flt → s.cfg = s'.cfg →
    (s.ir = none ↔ s'.ir = none) → exec i s = .next t → exec i s' = .next t' →
    t.x = t'.x ∧ t.mem = t'.mem ∧ t.ic = t'.ic ∧ t.flt = t'.flt ∧ t.out = t'.out

/-- spec/20_memory.md R34: the registers an instruction leaves depend on no cell but the one at its address and, for DLB, the next. -/
def Obligations.RegistersDependOnTheReadCellsOnly : Prop :=
  ∀ (i : Instr) (s t t' : State) (m : Memory),
    s.memRead (s.resolve i.br i.disp) = State.memRead { s with mem := m } (s.resolve i.br i.disp) →
    (i.handler = .dlb → s.memRead (secondCell (s.resolve i.br i.disp)) =
      State.memRead { s with mem := m } (secondCell (s.resolve i.br i.disp))) →
    exec i s = .next t → exec i { s with mem := m } = .next t' → t.x = t'.x

/-- A stored word is loaded back through the same base and displacement, into any register (spec/41_load_store.md R51, R53). -/
def Obligations.LoadAfterStoreGivesTheStoredWord : Prop :=
  ∀ (rd rd' : RegIdx) (br : BaseSel) (disp : Disp) (s t : State),
    s.Ready → exec (.stb rd br disp) s = .next t → t.Ready →
    ∃ u, exec (.lb rd' br disp) t = .next u ∧ u.readReg rd' = s.readReg rd

/-- A stored pair is loaded back in the same order through the same base and displacement, at 0xFFFF too: R0 goes with the lower
address both ways (spec/20_memory.md R32). -/
def Obligations.DoubleLoadAfterDoubleStoreKeepsThePair : Prop :=
  ∀ (br : BaseSel) (disp : Disp) (s t : State),
    s.Ready → exec (.dstb br disp) s = .next t → t.Ready →
    ∃ u, exec (.dlb br disp) t = .next u ∧ ∀ r, u.readReg r = s.readReg r

/-- Subtracting what was added restores every register, unless `Rd` is the base register, whose change moves the address
(spec/40_arithmetic.md R48, R49, spec/20_memory.md R30). -/
def Obligations.SubtractUndoesAdd : Prop :=
  ∀ (rd : RegIdx) (br : BaseSel) (disp : Disp) (s t : State),
    BaseMap.reg s.cfg.baseMap br ≠ rd → s.Ready → exec (.ab rd br disp) s = .next t → t.Ready →
    ∃ u, exec (.sbb rd br disp) t = .next u ∧ ∀ r, u.readReg r = s.readReg r
end

