-- ==== Sys2Proof/Laws/Decode.lean ====
section
/-! SUPPORT. The fields of a word made from three fields, and a word from its own fields. -/

namespace Sys2Proof

@[simp] theorem opcodeOf_wordOf (opc : Opcode) (br : BaseSel) (disp : Disp) :
    opcodeOf (wordOf opc br disp) = opc := by
  apply BitVec.eq_of_getLsbD_eq
  intro i hi
  simp only [opcodeOf, wordOf, BitVec.getLsbD_extractLsb', BitVec.getLsbD_append]
  have h1 : ¬ (10 + i < 8) := by omega
  have h2 : ¬ (10 + i - 8 < 2) := by omega
  simp [hi, h1, h2, show 10 + i - 8 - 2 = i by omega]

@[simp] theorem baseSelOf_wordOf (opc : Opcode) (br : BaseSel) (disp : Disp) :
    baseSelOf (wordOf opc br disp) = br := by
  apply BitVec.eq_of_getLsbD_eq
  intro i hi
  simp only [baseSelOf, wordOf, BitVec.getLsbD_extractLsb', BitVec.getLsbD_append]
  have h1 : ¬ (8 + i < 8) := by omega
  simp [hi, h1]

@[simp] theorem dispOf_wordOf (opc : Opcode) (br : BaseSel) (disp : Disp) :
    dispOf (wordOf opc br disp) = disp := by
  apply BitVec.eq_of_getLsbD_eq
  intro i hi
  simp only [dispOf, wordOf, BitVec.getLsbD_extractLsb', BitVec.getLsbD_append]
  simp [hi]

/-- A word is its three fields (R38). -/
theorem wordOf_fields (w : Word) : wordOf (opcodeOf w) (baseSelOf w) (dispOf w) = w := by
  apply BitVec.eq_of_getLsbD_eq
  intro i hi
  simp only [wordOf, opcodeOf, baseSelOf, dispOf, BitVec.getLsbD_append, BitVec.getLsbD_extractLsb']
  by_cases h8 : i < 8
  · simp [h8]
  · by_cases h10 : i - 8 < 2
    · simp [h8, h10, show 8 + (i - 8) = i by omega]
    · simp [h8, h10, show 10 + (i - 8 - 2) = i by omega, show i - 8 - 2 < 6 by omega]

/-- A row found by its opcode value has that value. -/
theorem Opcode6.of_eq_of_handler? {t : Opcode6} {opc : Opcode} {h : Handler} (e : t.handler? opc = some h) :
    t.of h = opc := by
  unfold Opcode6.handler? at e
  repeat (first | (split at e; · next q => cases e; exact q.symm) | cases e)

/-- Where the seven values differ, each names its own row. -/
theorem Opcode6.handler?_of {t : Opcode6} (d : t.distinct = true) (h : Handler) : t.handler? (t.of h) = some h := by
  simp only [Opcode6.distinct, Opcode6.values, decide_eq_true_eq, List.nodup_cons, List.mem_cons, List.not_mem_nil,
    or_false, not_or] at d
  cases h <;> simp_all [Opcode6.handler?, Opcode6.of, eq_comm]

/-- The handler selected by a handler's own `op_sel` is itself (R42). -/
theorem Handler.ofOpSel_opSel (h : Handler) : Handler.ofOpSel h.opSel = some h := by
  cases h <;> rfl

end Sys2Proof
end

