-- ==== Sys2Proof/Laws/State.lean ====
section
/-! SUPPORT. One lemma per field per update of the state, each true by rfl, and what the named reads give after each update. -/

namespace Sys2Proof.Machine

variable (s : State)

/-! ### writeReg -/

@[simp] theorem State.writeReg_cfg (i : RegIdx) (v : Word) : (s.writeReg i v).cfg = s.cfg := rfl
@[simp] theorem State.writeReg_x (i : RegIdx) (v : Word) : (s.writeReg i v).x = s.x.set i v := rfl
@[simp] theorem State.writeReg_ic (i : RegIdx) (v : Word) : (s.writeReg i v).ic = s.ic := rfl
@[simp] theorem State.writeReg_ir (i : RegIdx) (v : Word) : (s.writeReg i v).ir = s.ir := rfl
@[simp] theorem State.writeReg_mem (i : RegIdx) (v : Word) : (s.writeReg i v).mem = s.mem := rfl
@[simp] theorem State.writeReg_flt (i : RegIdx) (v : Word) : (s.writeReg i v).flt = s.flt := rfl
@[simp] theorem State.writeReg_pending (i : RegIdx) (v : Word) : (s.writeReg i v).pending = s.pending := rfl
@[simp] theorem State.writeReg_out (i : RegIdx) (v : Word) : (s.writeReg i v).out = s.out := rfl

/-! ### memWrite -/

@[simp] theorem State.memWrite_cfg (a v : Word) : (s.memWrite a v).cfg = s.cfg := rfl
@[simp] theorem State.memWrite_x (a v : Word) : (s.memWrite a v).x = s.x := rfl
@[simp] theorem State.memWrite_ic (a v : Word) : (s.memWrite a v).ic = s.ic := rfl
@[simp] theorem State.memWrite_ir (a v : Word) : (s.memWrite a v).ir = s.ir := rfl
@[simp] theorem State.memWrite_mem (a v : Word) : (s.memWrite a v).mem = Memory.write s.mem (cellKey a) v := rfl
@[simp] theorem State.memWrite_flt (a v : Word) : (s.memWrite a v).flt = s.flt := rfl
@[simp] theorem State.memWrite_pending (a v : Word) : (s.memWrite a v).pending = s.pending := rfl
@[simp] theorem State.memWrite_out (a v : Word) : (s.memWrite a v).out = s.out := rfl

/-! ### advanceIc -/

@[simp] theorem State.advanceIc_cfg : (s.advanceIc).cfg = s.cfg := rfl
@[simp] theorem State.advanceIc_x : (s.advanceIc).x = s.x := rfl
@[simp] theorem State.advanceIc_ic : (s.advanceIc).ic = BitVec.ofNat 16 (s.ic.toNat + 1) := rfl
@[simp] theorem State.advanceIc_ir : (s.advanceIc).ir = s.ir := rfl
@[simp] theorem State.advanceIc_mem : (s.advanceIc).mem = s.mem := rfl
@[simp] theorem State.advanceIc_flt : (s.advanceIc).flt = s.flt := rfl
@[simp] theorem State.advanceIc_pending : (s.advanceIc).pending = s.pending := rfl
@[simp] theorem State.advanceIc_out : (s.advanceIc).out = s.out := rfl

/-! ### clearIc -/

@[simp] theorem State.clearIc_cfg : (s.clearIc).cfg = s.cfg := rfl
@[simp] theorem State.clearIc_x : (s.clearIc).x = s.x := rfl
@[simp] theorem State.clearIc_ic : (s.clearIc).ic = 0#16 := rfl
@[simp] theorem State.clearIc_ir : (s.clearIc).ir = s.ir := rfl
@[simp] theorem State.clearIc_mem : (s.clearIc).mem = s.mem := rfl
@[simp] theorem State.clearIc_flt : (s.clearIc).flt = s.flt := rfl
@[simp] theorem State.clearIc_pending : (s.clearIc).pending = s.pending := rfl
@[simp] theorem State.clearIc_out : (s.clearIc).out = s.out := rfl

/-! ### clearRegFile -/

@[simp] theorem State.clearRegFile_cfg : (s.clearRegFile).cfg = s.cfg := rfl
@[simp] theorem State.clearRegFile_x : (s.clearRegFile).x = Vector.replicate 16 0#16 := rfl
@[simp] theorem State.clearRegFile_ic : (s.clearRegFile).ic = 0#16 := rfl
@[simp] theorem State.clearRegFile_ir : (s.clearRegFile).ir = s.ir := rfl
@[simp] theorem State.clearRegFile_mem : (s.clearRegFile).mem = s.mem := rfl
@[simp] theorem State.clearRegFile_flt : (s.clearRegFile).flt = s.flt := rfl
@[simp] theorem State.clearRegFile_pending : (s.clearRegFile).pending = s.pending := rfl
@[simp] theorem State.clearRegFile_out : (s.clearRegFile).out = s.out := rfl

/-! ### latch -/

@[simp] theorem State.latch_cfg (w : Word) : (s.latch w).cfg = s.cfg := rfl
@[simp] theorem State.latch_x (w : Word) : (s.latch w).x = s.x := rfl
@[simp] theorem State.latch_ic (w : Word) : (s.latch w).ic = s.ic := rfl
@[simp] theorem State.latch_ir (w : Word) : (s.latch w).ir = some w := rfl
@[simp] theorem State.latch_mem (w : Word) : (s.latch w).mem = s.mem := rfl
@[simp] theorem State.latch_flt (w : Word) : (s.latch w).flt = s.flt := rfl
@[simp] theorem State.latch_pending (w : Word) : (s.latch w).pending = s.pending := rfl
@[simp] theorem State.latch_out (w : Word) : (s.latch w).out = s.out := rfl

/-! ### emit -/

@[simp] theorem State.emit_cfg (o : Output) : (s.emit o).cfg = s.cfg := rfl
@[simp] theorem State.emit_x (o : Output) : (s.emit o).x = s.x := rfl
@[simp] theorem State.emit_ic (o : Output) : (s.emit o).ic = s.ic := rfl
@[simp] theorem State.emit_ir (o : Output) : (s.emit o).ir = s.ir := rfl
@[simp] theorem State.emit_mem (o : Output) : (s.emit o).mem = s.mem := rfl
@[simp] theorem State.emit_flt (o : Output) : (s.emit o).flt = s.flt := rfl
@[simp] theorem State.emit_pending (o : Output) : (s.emit o).pending = s.pending := rfl
@[simp] theorem State.emit_out (o : Output) : (s.emit o).out = o := rfl

/-! ### raise -/

@[simp] theorem State.raise_cfg (f : Fault) : (s.raise f).cfg = s.cfg := rfl
@[simp] theorem State.raise_x (f : Fault) : (s.raise f).x = s.x := rfl
@[simp] theorem State.raise_ic (f : Fault) : (s.raise f).ic = s.ic := rfl
@[simp] theorem State.raise_ir (f : Fault) : (s.raise f).ir = s.ir := rfl
@[simp] theorem State.raise_mem (f : Fault) : (s.raise f).mem = s.mem := rfl
@[simp] theorem State.raise_flt (f : Fault) : (s.raise f).flt = some f := rfl
@[simp] theorem State.raise_pending (f : Fault) : (s.raise f).pending = s.pending := rfl
@[simp] theorem State.raise_out (f : Fault) : (s.raise f).out = .fault f := rfl

/-! ### refuse -/

@[simp] theorem State.refuse_cfg : (s.refuse).cfg = s.cfg := rfl
@[simp] theorem State.refuse_x : (s.refuse).x = s.x := rfl
@[simp] theorem State.refuse_ic : (s.refuse).ic = s.ic := rfl
@[simp] theorem State.refuse_ir : (s.refuse).ir = s.ir := rfl
@[simp] theorem State.refuse_mem : (s.refuse).mem = s.mem := rfl
@[simp] theorem State.refuse_flt : (s.refuse).flt = s.flt := rfl
@[simp] theorem State.refuse_pending : (s.refuse).pending = s.pending := rfl
@[simp] theorem State.refuse_out : (s.refuse).out = .refused := rfl

/-! ### coldReset -/

@[simp] theorem State.coldReset_cfg : (s.coldReset).cfg = s.cfg := rfl
@[simp] theorem State.coldReset_x : (s.coldReset).x = Vector.replicate 16 0#16 := rfl
@[simp] theorem State.coldReset_ic : (s.coldReset).ic = 0#16 := rfl
@[simp] theorem State.coldReset_ir : (s.coldReset).ir = none := rfl
@[simp] theorem State.coldReset_mem : (s.coldReset).mem = [] := rfl
@[simp] theorem State.coldReset_flt : (s.coldReset).flt = none := rfl
@[simp] theorem State.coldReset_pending : (s.coldReset).pending = s.pending := rfl
@[simp] theorem State.coldReset_out : (s.coldReset).out = .nothing := rfl

/-! ### dequeue -/

@[simp] theorem State.dequeue_cfg : (s.dequeue).cfg = s.cfg := rfl
@[simp] theorem State.dequeue_x : (s.dequeue).x = s.x := rfl
@[simp] theorem State.dequeue_ic : (s.dequeue).ic = s.ic := rfl
@[simp] theorem State.dequeue_ir : (s.dequeue).ir = s.ir := rfl
@[simp] theorem State.dequeue_mem : (s.dequeue).mem = s.mem := rfl
@[simp] theorem State.dequeue_flt : (s.dequeue).flt = s.flt := rfl
@[simp] theorem State.dequeue_pending : (s.dequeue).pending = s.pending.tail := rfl
@[simp] theorem State.dequeue_out : (s.dequeue).out = s.out := rfl

/-! ### The named reads after each update -/

@[simp] theorem State.writeReg_memRead (i : RegIdx) (v : Word) (b : Word) : (s.writeReg i v).memRead b = s.memRead b := rfl
@[simp] theorem State.memWrite_readReg (a v : Word) (r : RegIdx) : (s.memWrite a v).readReg r = s.readReg r := rfl
@[simp] theorem State.memWrite_resolve (a v : Word) (br : BaseSel) (disp : Disp) :
    (s.memWrite a v).resolve br disp = s.resolve br disp := rfl
@[simp] theorem State.advanceIc_readReg (r : RegIdx) : (s.advanceIc).readReg r = s.readReg r := rfl
@[simp] theorem State.advanceIc_memRead (b : Word) : (s.advanceIc).memRead b = s.memRead b := rfl
@[simp] theorem State.advanceIc_resolve (br : BaseSel) (disp : Disp) :
    (s.advanceIc).resolve br disp = s.resolve br disp := rfl
@[simp] theorem State.clearIc_readReg (r : RegIdx) : (s.clearIc).readReg r = s.readReg r := rfl
@[simp] theorem State.clearIc_memRead (b : Word) : (s.clearIc).memRead b = s.memRead b := rfl
@[simp] theorem State.clearIc_resolve (br : BaseSel) (disp : Disp) :
    (s.clearIc).resolve br disp = s.resolve br disp := rfl
@[simp] theorem State.clearRegFile_memRead (b : Word) : (s.clearRegFile).memRead b = s.memRead b := rfl
@[simp] theorem State.latch_readReg (w : Word) (r : RegIdx) : (s.latch w).readReg r = s.readReg r := rfl
@[simp] theorem State.latch_memRead (w : Word) (b : Word) : (s.latch w).memRead b = s.memRead b := rfl
@[simp] theorem State.latch_resolve (w : Word) (br : BaseSel) (disp : Disp) :
    (s.latch w).resolve br disp = s.resolve br disp := rfl
@[simp] theorem State.emit_readReg (o : Output) (r : RegIdx) : (s.emit o).readReg r = s.readReg r := rfl
@[simp] theorem State.emit_memRead (o : Output) (b : Word) : (s.emit o).memRead b = s.memRead b := rfl
@[simp] theorem State.emit_resolve (o : Output) (br : BaseSel) (disp : Disp) :
    (s.emit o).resolve br disp = s.resolve br disp := rfl
@[simp] theorem State.raise_readReg (f : Fault) (r : RegIdx) : (s.raise f).readReg r = s.readReg r := rfl
@[simp] theorem State.raise_memRead (f : Fault) (b : Word) : (s.raise f).memRead b = s.memRead b := rfl
@[simp] theorem State.raise_resolve (f : Fault) (br : BaseSel) (disp : Disp) :
    (s.raise f).resolve br disp = s.resolve br disp := rfl
@[simp] theorem State.refuse_readReg (r : RegIdx) : (s.refuse).readReg r = s.readReg r := rfl
@[simp] theorem State.refuse_memRead (b : Word) : (s.refuse).memRead b = s.memRead b := rfl
@[simp] theorem State.refuse_resolve (br : BaseSel) (disp : Disp) :
    (s.refuse).resolve br disp = s.resolve br disp := rfl
@[simp] theorem State.dequeue_readReg (r : RegIdx) : (s.dequeue).readReg r = s.readReg r := rfl
@[simp] theorem State.dequeue_memRead (b : Word) : (s.dequeue).memRead b = s.memRead b := rfl
@[simp] theorem State.dequeue_resolve (br : BaseSel) (disp : Disp) :
    (s.dequeue).resolve br disp = s.resolve br disp := rfl

/-- A register write is read back at its own index and nowhere else (R7: no register is hardwired or aliased). -/
theorem State.writeReg_readReg (i : RegIdx) (v : Word) (r : RegIdx) :
    (s.writeReg i v).readReg r = if i = r then v else s.readReg r := by
  simp [State.writeReg, State.readReg, Vector.getElem_set, Fin.ext_iff]

@[simp] theorem State.writeReg_readReg_self (i : RegIdx) (v : Word) : (s.writeReg i v).readReg i = v := by
  simp [State.writeReg_readReg]

theorem State.writeReg_readReg_of_ne {i r : RegIdx} (v : Word) (h : r ≠ i) :
    (s.writeReg i v).readReg r = s.readReg r := by
  simp [State.writeReg_readReg, Ne.symm h]

@[simp] theorem State.clearRegFile_readReg (r : RegIdx) : s.clearRegFile.readReg r = 0#16 := by
  simp [State.readReg]

@[simp] theorem State.coldReset_readReg (r : RegIdx) : s.coldReset.readReg r = 0#16 := by
  simp [State.readReg]

@[simp] theorem State.coldReset_memRead (a : Word) : s.coldReset.memRead a = 0#16 := rfl

end Sys2Proof.Machine
end

