-- ==== Sys2Proof/Laws/Memory.lean ====
section
/-! SUPPORT. The paged memory: the page and offset split names each of the 65536 places once, a write is read back at its own
place and nowhere else, and every operation keeps the canonical form. -/

namespace Sys2Proof.Machine

/-- The place of a cell is its address (spec/20_memory.md R24: the flat array). -/
@[simp] theorem cellKey_eq (a : Word) : cellKey a = a.toNat := by
  simp only [cellKey, pageOf, offsetOf, BitVec.extractLsb'_toNat]
  omega

theorem cellKey_lt (a : Word) : cellKey a < 65536 := by
  rw [cellKey_eq]; exact a.isLt

theorem cellKey_inj {a b : Word} : cellKey a = cellKey b ↔ a = b := by
  rw [cellKey_eq, cellKey_eq]; exact BitVec.toNat_inj

namespace MemoryLaws

theorem read_erase (m : Memory) (k j : Nat) :
    Memory.read (Memory.erase m k) j = if k = j then 0#16 else Memory.read m j := by
  induction m with
  | nil => simp [Memory.erase, Memory.read]
  | cons c m ih =>
    unfold Memory.erase at ih ⊢
    by_cases hc : c.1 = k
    · rw [List.filter_cons_of_neg (by simpa using hc), ih]
      subst hc
      split <;> simp_all [Memory.read]
    · rw [List.filter_cons_of_pos (by simpa using hc), Memory.read, Memory.read, ih]
      by_cases hj : c.1 = j
      · rw [if_pos hj, if_pos hj, if_neg (fun hkj => hc (hj.trans hkj.symm))]
      · rw [if_neg hj, if_neg hj]

theorem read_insert_of_ne {k j : Nat} (h : k ≠ j) (v : Word) (m : Memory) :
    Memory.read (Memory.insert k v m) j = Memory.read m j := by
  induction m with
  | nil => simp [Memory.insert, Memory.read, h]
  | cons c m ih =>
    unfold Memory.insert
    split
    · simp [Memory.read, h]
    · simp [Memory.read, ih]

theorem read_insert_self {k : Nat} {m : Memory} (h : ∀ c ∈ m, c.1 ≠ k) (v : Word) :
    Memory.read (Memory.insert k v m) k = v := by
  induction m with
  | nil => simp [Memory.insert, Memory.read]
  | cons c m ih =>
    unfold Memory.insert
    split
    · simp [Memory.read]
    · simp [Memory.read, h c (by simp), ih (fun d hd => h d (by simp [hd]))]

theorem mem_erase {m : Memory} {k : Nat} {c : Cell} : c ∈ Memory.erase m k ↔ c ∈ m ∧ c.1 ≠ k := by
  simp [Memory.erase]

/-- A write is read back at its own place and nowhere else (R25, R26), in any list of cells. -/
theorem read_write (m : Memory) (k j : Nat) (v : Word) :
    Memory.read (Memory.write m k v) j = if k = j then v else Memory.read m j := by
  unfold Memory.write
  split
  · next hv => rw [read_erase, hv]
  · by_cases h : k = j
    · subst h
      simp [read_insert_self (fun c hc => (mem_erase.1 hc).2)]
    · rw [read_insert_of_ne h, read_erase, if_neg h, if_neg h]

theorem mem_insert {k : Nat} {v : Word} {m : Memory} {c : Cell} :
    c ∈ Memory.insert k v m ↔ c = (k, v) ∨ c ∈ m := by
  induction m with
  | nil => simp [Memory.insert]
  | cons d m ih =>
    unfold Memory.insert
    split
    · simp
    · simp only [List.mem_cons, ih]; tauto

theorem wf_erase {m : Memory} (k : Nat) (h : Memory.wf m) : Memory.wf (Memory.erase m k) :=
  ⟨h.1.filter _, fun c hc => h.2 c (mem_erase.1 hc).1⟩

theorem wf_insert {m : Memory} {k : Nat} {v : Word} (h : Memory.wf m) (hk : k < 65536) (hv : v ≠ 0#16)
    (hne : ∀ c ∈ m, c.1 ≠ k) : Memory.wf (Memory.insert k v m) := by
  refine ⟨?_, fun c hc => ?_⟩
  · induction m with
    | nil => simp [Memory.insert]
    | cons d m ih =>
      obtain ⟨hp, hm⟩ := h
      rw [List.pairwise_cons] at hp
      have hd : d.1 ≠ k := hne d (by simp)
      unfold Memory.insert
      split
      · next hlt =>
        refine List.pairwise_cons.2 ⟨fun c hc => ?_, List.pairwise_cons.2 hp⟩
        rcases List.mem_cons.1 hc with rfl | hc
        · exact hlt
        · exact hlt.trans (hp.1 c hc)
      · next hlt =>
        refine List.pairwise_cons.2 ⟨fun c hc => ?_, ih ⟨hp.2, fun c hc => hm c (by simp [hc])⟩
          (fun c hc => hne c (by simp [hc]))⟩
        rcases mem_insert.1 hc with rfl | hc
        · show d.1 < k
          omega
        · exact hp.1 c hc
  · rcases mem_insert.1 hc with rfl | hc
    · exact ⟨hk, hv⟩
    · exact h.2 c hc

/-- A write keeps the canonical form. -/
theorem wf_write {m : Memory} {k : Nat} (v : Word) (h : Memory.wf m) (hk : k < 65536) :
    Memory.wf (Memory.write m k v) := by
  unfold Memory.write
  split
  · exact wf_erase k h
  · next hv => exact wf_insert (wf_erase k h) hk hv (fun c hc => (mem_erase.1 hc).2)

end MemoryLaws

/-- `MemWrite` sets its own cell and no other (R26). -/
theorem State.memWrite_memRead (s : State) (a v b : Word) :
    (s.memWrite a v).memRead b = if a = b then v else s.memRead b := by
  simp only [State.memRead, State.memWrite_mem, MemoryLaws.read_write, cellKey_inj]

/-- `MemWrite` keeps the canonical form. -/
theorem State.memWrite_wf {s : State} (a v : Word) (h : Memory.wf s.mem) : Memory.wf (s.memWrite a v).mem :=
  MemoryLaws.wf_write v h (cellKey_lt a)

/-- The memory after reset is in canonical form. -/
theorem State.reset_mem_wf : Memory.wf State.reset.mem := by decide

/-- The memory after `ColdReset` is in canonical form. -/
theorem State.coldReset_wf (s : State) : Memory.wf s.coldReset.mem :=
  State.reset_mem_wf

end Sys2Proof.Machine
end

