-- ==== Sys2Proof/Laws/Ops.lean ====
section
/-! SUPPORT. What each shared operation can do, said once: the gate, an invocation, an instruction's body, one step. -/

namespace Sys2Proof.Machine

/-! ## Arithmetic on words -/

@[simp] theorem sext16_eq (w : Word) : sext16 w = w := by simp [sext16]

@[simp] theorem State.memOperand_eq (s : State) (ea : Word) : s.memOperand ea = s.memRead ea := sext16_eq _

theorem word_natCast (n : Nat) : word (n : Int) = BitVec.ofNat 16 n := BitVec.ofInt_natCast 16 n

/-- The second cell is the next one, modulo 2^16 (R31). -/
theorem secondCell_eq (ea : Word) : secondCell ea = ea + 1#16 := by
  have h : unsigned ea + 1 = ((ea.toNat + 1 : Nat) : Int) := by simp [unsigned]
  rw [secondCell, h, word_natCast]
  apply BitVec.eq_of_toNat_eq
  simp [BitVec.toNat_add]

theorem secondCell_ne (ea : Word) : secondCell ea ≠ ea := by
  rw [secondCell_eq]
  intro h
  have := congrArg BitVec.toNat h
  simp only [BitVec.toNat_add, BitVec.toNat_ofNat] at this
  omega

theorem resolve_eq (s : State) (br : BaseSel) (disp : Disp) :
    s.resolve br disp = s.readReg (BaseMap.reg s.cfg.baseMap br) + zext16 disp := by
  have h (a b : Word) : unsigned a + unsigned b = ((a.toNat + b.toNat : Nat) : Int) := by simp [unsigned]
  rw [State.resolve, h, word_natCast]
  apply BitVec.eq_of_toNat_eq
  simp [BitVec.toNat_add]

theorem aluAdd_eq (a b : Word) : aluAdd a b = a + b := by
  apply BitVec.eq_of_toInt_eq
  simp [aluAdd, word, signed, BitVec.toInt_ofInt, BitVec.toInt_add]

theorem aluSub_eq (a b : Word) : aluSub a b = a - b := by
  apply BitVec.eq_of_toInt_eq
  simp [aluSub, word, signed, BitVec.toInt_ofInt, BitVec.toInt_sub]

theorem aluMul_eq (a b : Word) : aluMul a b = a * b := by
  apply BitVec.eq_of_toInt_eq
  simp [aluMul, word, signed, BitVec.toInt_ofInt, BitVec.toInt_mul]

theorem advanceIc_eq (s : State) : s.advanceIc.ic = s.ic + 1#16 := by
  apply BitVec.eq_of_toNat_eq
  simp [BitVec.toNat_add]

/-! ## The gate of R56 -/

theorem State.unlessStuck_of_none {s : State} (h : s.flt = none) (t : State) : s.unlessStuck t = t := by
  simp [State.unlessStuck, h]

theorem State.unlessStuck_of_some {s : State} {f : Fault} (h : s.flt = some f) (t : State) :
    s.unlessStuck t = s.refuse := by
  simp [State.unlessStuck, h]

/-- The gate answers the refused state or the state it guards. -/
theorem State.unlessStuck_cases (s t : State) :
    (∃ f, s.flt = some f ∧ s.unlessStuck t = s.refuse) ∨ (s.flt = none ∧ s.unlessStuck t = t) := by
  cases h : s.flt with
  | none => exact .inr ⟨rfl, s.unlessStuck_of_none h t⟩
  | some f => exact .inl ⟨f, rfl, s.unlessStuck_of_some h t⟩

/-! ## One invocation (R19) -/

/-- What a handler's body does to the state, before the counter advances. -/
def bodyOf : Instr → Word → State → State
  | .ab rd _ _ => fun ea s => s.aluInto aluAdd rd ea
  | .sbb rd _ _ => fun ea s => s.aluInto aluSub rd ea
  | .mb rd _ _ => fun ea s => s.aluInto aluMul rd ea
  | .lb rd _ _ => fun ea s => s.writeReg rd (s.memOperand ea)
  | .dlb _ _ => fun ea s => s.loadPair ea
  | .stb rd _ _ => fun ea s => s.memWrite ea (s.readReg rd)
  | .dstb _ _ => fun ea s => s.storePair ea

/-- The state a completed invocation of an instruction leaves. -/
def completed (i : Instr) (s : State) : State :=
  ((bodyOf i (s.resolve i.br i.disp) s).advanceIc).emit (.code i.handler)

/-- Every instruction is one invocation of its body. -/
theorem exec_eq_invocation (i : Instr) (s : State) :
    exec i s = s.invocation i.handler i.br i.disp (bodyOf i) := by
  cases i <;> rfl

/-- Everything an instruction can do: refused, `IrUnset`, `IcOverflow`, or completed. -/
theorem exec_cases (i : Instr) (s : State) :
    (∃ f, s.flt = some f ∧ exec i s = .next s.refuse) ∨
    (s.flt = none ∧ s.ir = none ∧ exec i s = .next (s.raise .irUnset)) ∨
    (s.flt = none ∧ s.ir ≠ none ∧ s.icOverflows ∧ exec i s = .next (s.raise (.icOverflow s.ic))) ∨
    (s.Ready ∧ exec i s = .next (completed i s)) := by
  rw [exec_eq_invocation]
  unfold State.invocation
  rcases s.unlessStuck_cases (if s.ir = none then s.raise .irUnset
    else if s.icOverflows then s.raise (.icOverflow s.ic)
    else ((bodyOf i (s.resolve i.br i.disp) s).advanceIc).emit (.code i.handler)) with ⟨f, hf, he⟩ | ⟨hf, he⟩
  · exact .inl ⟨f, hf, by rw [he]⟩
  · refine .inr ?_
    rw [he]
    by_cases hi : s.ir = none
    · exact .inl ⟨hf, hi, by rw [if_pos hi]⟩
    · by_cases ho : s.icOverflows
      · exact .inr (.inl ⟨hf, hi, ho, by rw [if_neg hi, if_pos ho]⟩)
      · exact .inr (.inr ⟨⟨hf, hi, ho⟩, by rw [if_neg hi, if_neg ho]; rfl⟩)

/-- Where an invocation completes, the instruction answers the completed state. -/
theorem exec_of_ready {s : State} (h : s.Ready) (i : Instr) : exec i s = .next (completed i s) := by
  rcases exec_cases i s with ⟨f, hf, _⟩ | ⟨_, hi, _⟩ | ⟨_, _, ho, _⟩ | ⟨_, e⟩
  · exact absurd (h.1.symm.trans hf) (by simp)
  · exact absurd hi h.2.1
  · exact absurd ho h.2.2
  · exact e

/-- Every next state of an instruction is the refused, a faulted or the completed one. -/
theorem exec_next_cases {i : Instr} {s t : State} (h : exec i s = .next t) :
    t = s.refuse ∨ (∃ f, t = s.raise f) ∨ (s.Ready ∧ t = completed i s) := by
  rcases exec_cases i s with ⟨_, _, e⟩ | ⟨_, _, e⟩ | ⟨_, _, _, e⟩ | ⟨r, e⟩ <;> rw [e] at h <;> cases h
  exacts [.inl rfl, .inr (.inl ⟨_, rfl⟩), .inr (.inl ⟨_, rfl⟩), .inr (.inr ⟨r, rfl⟩)]

/-- A body changes registers and memory only. -/
theorem bodyOf_rest (i : Instr) (ea : Word) (s : State) :
    (bodyOf i ea s).cfg = s.cfg ∧ (bodyOf i ea s).ic = s.ic ∧ (bodyOf i ea s).ir = s.ir ∧
    (bodyOf i ea s).flt = s.flt ∧ (bodyOf i ea s).pending = s.pending := by
  cases i <;> exact ⟨rfl, rfl, rfl, rfl, rfl⟩

/-- A body keeps the canonical form of memory. -/
theorem bodyOf_wf (i : Instr) (ea : Word) {s : State} (h : Memory.wf s.mem) : Memory.wf (bodyOf i ea s).mem := by
  cases i with
  | stb rd br disp => exact State.memWrite_wf _ _ h
  | dstb br disp => exact State.memWrite_wf _ _ (State.memWrite_wf _ _ h)
  | ab | sbb | mb | lb | dlb => exact h

/-! ## One step (R21) -/

theorem step_idle {s : State} (h : s.pending = []) : step s = .next s := by
  simp [step, h]

theorem step_op {s : State} {op : HostOp} {rest : List HostOp} (h : s.pending = op :: rest) :
    step s = s.dequeue.perform op := by
  simp [step, h]

/-- The state without its oldest operation, written out. -/
theorem dequeue_eq {s : State} {op : HostOp} {rest : List HostOp} (h : s.pending = op :: rest) :
    s.dequeue = { s with pending := rest } := by
  simp [State.dequeue, h]

/-- A run is a step and then a run. -/
theorem run_of_step {s t : State} (k : Nat) (h : step s = .next t) :
    Host.Core.run Sys2Proof.core (k + 1) s = Host.Core.run Sys2Proof.core k t := by
  have h' : Sys2Proof.core.step s = .next t := h
  refine (Host.Core.run.eq_2 Sys2Proof.core s k).trans ?_
  simp only [h']

/-- A step is idle or performs the oldest pending operation. -/
theorem step_cases (s : State) :
    (s.pending = [] ∧ step s = .next s) ∨
    ∃ op rest, s.pending = op :: rest ∧ step s = s.dequeue.perform op := by
  cases h : s.pending with
  | nil => exact .inl ⟨rfl, step_idle h⟩
  | cons op rest => exact .inr ⟨op, rest, rfl, step_op h⟩

end Sys2Proof.Machine
end

