-- ==== Sys2Proof/Laws/PerInstr.lean ====
section
/-! SUPPORT. The family EncodeFields: the word of an instruction holds its row's opcode value, its base selector and its
displacement in the three fields of R38, under every `OPCODE6`. -/

namespace Sys2Proof.Laws.EncodeFields

/-- The three fields of the instruction's word. -/
def Statement (i : Instr) : Prop :=
  ∀ t : Opcode6, opcodeOf (encode t i) = t.of i.handler ∧ baseSelOf (encode t i) = i.br ∧ dispOf (encode t i) = i.disp

theorem ab (rd : RegIdx) (br : BaseSel) (disp : Disp) : Statement (.ab rd br disp) := by simp [Statement, encode]
theorem sbb (rd : RegIdx) (br : BaseSel) (disp : Disp) : Statement (.sbb rd br disp) := by simp [Statement, encode]
theorem mb (rd : RegIdx) (br : BaseSel) (disp : Disp) : Statement (.mb rd br disp) := by simp [Statement, encode]
theorem lb (rd : RegIdx) (br : BaseSel) (disp : Disp) : Statement (.lb rd br disp) := by simp [Statement, encode]
theorem dlb (br : BaseSel) (disp : Disp) : Statement (.dlb br disp) := by simp [Statement, encode]
theorem stb (rd : RegIdx) (br : BaseSel) (disp : Disp) : Statement (.stb rd br disp) := by simp [Statement, encode]
theorem dstb (br : BaseSel) (disp : Disp) : Statement (.dstb br disp) := by simp [Statement, encode]

end Sys2Proof.Laws.EncodeFields
end

