-- ==== Sys2Proof/Tests/Slice0.lean ====
section
/-! SUPPORT. Small tests with expected values from spec/95_test_vectors.md and the examples of spec/40_arithmetic.md and
spec/41_load_store.md, the ill-formed terms the checks refuse, and for each obligation with hypotheses a witness that meets them. -/

namespace Sys2Proof.Tests

open Sys2Proof.Machine

/-- The next state of an outcome, if it is one. -/
def nextOf (o : Host.Outcome State Fault Refusal) : Option State :=
  match o with
  | .next s => some s
  | .fault _ => none
  | .refused _ => none

/-- One register, the counter and the output after an outcome. -/
def regIcOut (r : RegIdx) (o : Host.Outcome State Fault Refusal) : Option (Word × Word × Output) :=
  (nextOf o).map (fun t => (t.readReg r, t.ic, t.out))

/-- Some cells after an outcome. -/
def cells (as : List Word) (o : Host.Outcome State Fault Refusal) : Option (List Word) :=
  (nextOf o).map (fun t => as.map t.memRead)

/-- Some registers after an outcome. -/
def regs (rs : List RegIdx) (o : Host.Outcome State Fault Refusal) : Option (List Word) :=
  (nextOf o).map (fun t => rs.map t.readReg)

/-- Reset, then registers and cells set. -/
def start (rs : List (RegIdx × Word)) (ms : List (Word × Word)) : State :=
  ms.foldl (fun s c => s.memWrite c.1 c.2) (rs.foldl (fun s c => s.writeReg c.1 c.2) State.reset)

/-- The same under `BASE_MAP` = R0 to R3. -/
def startLow (rs : List (RegIdx × Word)) (ms : List (Word × Word)) : State :=
  { start rs ms with cfg := { Config.default with baseMap := BaseMap.low } }

/-- One fed instruction word. -/
def run1 (w : Nat) (s : State) : Host.Outcome State Fault Refusal := step (s.withFetchWord 16 w)

/-- A state in which an invocation completes. -/
def ready : State := State.reset.latch 0x107F

/-- A state with a recorded fault. -/
def stuck : State := State.reset.raise .irUnset

/-- A state at the top of the counter under `IC_OVERFLOW = fault`. -/
def atTop : State := { ready with ic := 0xFFFF, cfg := { Config.default with icOverflow := .fault } }

/-- A state with the host's next operations. -/
def withOps (ops : List HostOp) (s : State) : State := { s with pending := ops }

/-! ## Ill-formed terms -/

theorem test_wf_rd : (Instr.ab 3 0 0).wellFormed = false ∧ (Instr.ab 2 0 0).wellFormed = true ∧
    (Instr.dlb 0 0).wellFormed = true := by decide
theorem test_wf_baseMap : BaseMap.injective #v[12, 13, 13, 15] = false ∧ BaseMap.injective BaseMap.low = true := by decide
theorem test_wf_opcode6 : Opcode6.distinct { Opcode6.reference with mb := 0 } = false := by decide
theorem test_wf_config : Config.wellFormed { Config.default with baseMap := #v[1, 1, 2, 3] } = false ∧
    Config.default.wellFormed = true := by decide
theorem test_wf_memory : ¬ Memory.wf [(5, 1), (3, 1)] ∧ ¬ Memory.wf [(5, 0)] ∧ ¬ Memory.wf [(65536, 1)] ∧
    Memory.wf [(3, 1), (5, 1)] := by decide

/-! ## Decoding: words written out bit by bit from R44 -/

theorem test_decode_AB : decodeTableWord 16 0b0001000001111111 = some (.ab 2 0 0x7F) := by decide
theorem test_decode_SBB : decodeTableWord 16 0b0001010000000101 = some (.sbb 2 0 5) := by decide
theorem test_decode_MB : decodeTableWord 16 0b0001101100000000 = some (.mb 2 3 0) := by decide
theorem test_decode_LB : decodeTableWord 16 0b0000001000010000 = some (.lb 2 2 0x10) := by decide
theorem test_decode_DLB : decodeTableWord 16 0b0000010100000000 = some (.dlb 1 0) := by decide
theorem test_decode_STB : decodeTableWord 16 0b0000101100100000 = some (.stb 2 3 0x20) := by decide
theorem test_decode_DSTB : decodeTableWord 16 0b0000110000001111 = some (.dstb 0 0x0F) := by decide
/-- R45: opcodes 0b000111 and 0b111111 are reserved. -/
theorem test_decode_reserved : decode Opcode6.reference 0x1C00 = .reserved 7 ∧
    decode Opcode6.reference 0xFFFF = .reserved 63 := by decide
/-- R47: `AB R12, 0x7F` is 0x107F; 256 is no displacement and R11 no base register. -/
theorem test_assemble : assemble Config.default .ab 12 0x7F = some 0x107F ∧
    assemble Config.default .dlb 13 0 = some 0x0500 ∧ assemble Config.default .ab 12 256 = none ∧
    assemble Config.default .ab 11 0 = none := by decide

/-! ## Address resolution (95 section 2.1) -/

theorem test_resolve_wraps : (start [(12, 0xFFFF)] []).resolve 0 2 = 0x0001 ∧
    (start [(12, 0xFF01)] []).resolve 0 0xFF = 0x0000 ∧ (start [(12, 0x8000)] []).resolve 0 0xFF = 0x80FF := by decide
theorem test_resolve_selectors : (start [(13, 0x2000)] []).resolve 1 5 = 0x2005 ∧
    (start [(15, 0x4000)] []).resolve 3 5 = 0x4005 ∧ (startLow [(3, 0x4000)] []).resolve 3 5 = 0x4005 := by decide

/-! ## Instructions (95 sections 1, 2.2, 2.3) -/

/-- S6. -/
theorem test_AB_scenario :
    regIcOut 2 (run1 0x107F (start [(12, 0x1000), (2, 1000)] [(0x107F, 100)])) = some (1100, 1, .code .ab) := by decide
/-- The base register is also `Rd`: the address comes from its old value. -/
theorem test_AB_rd_is_base :
    regIcOut 2 (run1 0x1200 (startLow [(2, 0x0010)] [(0x0010, 5)])) = some (0x0015, 1, .code .ab) := by decide
theorem test_SBB_negative_overflow :
    regIcOut 2 (run1 0x1405 (start [(12, 0x2000), (2, 0x8000)] [(0x2005, 1)])) = some (0x7FFF, 1, .code .sbb) := by decide
theorem test_SBB_order :
    regIcOut 2 (run1 0x1400 (start [(2, 5)] [(0, 7)])) = some (0xFFFE, 1, .code .sbb) := by decide
/-- S7, corrected by C3. -/
theorem test_MB_scenario :
    regIcOut 2 (run1 0x1800 (start [(2, 0xFF85)] [(0, 0x01C8)])) = some (0x24E8, 1, .code .mb) := by decide
theorem test_MB_wraps :
    regIcOut 2 (run1 0x1800 (start [(2, 0x8000)] [(0, 0xFFFF)])) = some (0x8000, 1, .code .mb) := by decide
theorem test_LB_moves_every_bit :
    regIcOut 2 (run1 0x0210 (start [(14, 0x3000)] [(0x3010, 0x8001)])) = some (0x8001, 1, .code .lb) := by decide
theorem test_DLB_wraps :
    regs [0, 1, 2] (run1 0x0500 (start [(13, 0xFFFF)] [(0xFFFF, 0x1234), (0x0000, 0x5678)])) =
      some [0x1234, 0x5678, 0] := by decide
/-- The base register is also R0. -/
theorem test_DLB_base_is_R0 :
    regs [0, 1] (run1 0x0400 (startLow [(0, 0x0040)] [(0x0040, 0x0050), (0x0041, 0x0060)])) =
      some [0x0050, 0x0060] := by decide
theorem test_STB_one_cell :
    cells [0x0110, 0x0111] (run1 0x0B20 (start [(15, 0x00F0), (2, 0x1234)] [(0x0111, 9)])) = some [0x1234, 9] := by decide
/-- S5. -/
theorem test_STB_wraps :
    cells [0x0000, 0x0001, 0x0002] (run1 0x0802 (start [(12, 0xFFFF), (2, 0xBEEF)] [])) = some [0, 0xBEEF, 0] := by decide
theorem test_DSTB_wraps :
    cells [0xFFFF, 0x0000] (run1 0x0C0F (start [(12, 0xFFF0), (0, 0xAAAA), (1, 0x5555)] [])) =
      some [0xAAAA, 0x5555] := by decide
theorem test_DSTB_neighbours :
    cells [0x200F, 0x2010, 0x2011, 0x2012]
      (run1 0x0E10 (start [(14, 0x2000), (0, 0x1234), (1, 0x5678)] [(0x200F, 1), (0x2012, 2)])) =
      some [1, 0x1234, 0x5678, 2] := by decide

/-! ## Counter, faults and host operations (95 section 2.4) -/

theorem test_counter_wraps :
    regIcOut 2 (run1 0x0000 { start [] [(0, 7)] with ic := 0xFFFF }) = some (7, 0, .code .lb) := by decide
theorem test_counter_faults :
    (nextOf (exec (.lb 2 0 0) atTop)).map (fun t => (t.flt, t.ic, t.readReg 2)) =
      some (some (.icOverflow 0xFFFF), 0xFFFF, 0) := by decide
theorem test_invoke_unset :
    (nextOf (step (withOps [.invoke 0 2] State.reset))).map (fun t => (t.flt, t.ic)) = some (some .irUnset, 0) := by decide
/-- `NoHandler` comes first, with `ir` UNSET too. -/
theorem test_invoke_no_handler :
    (nextOf (step (withOps [.invoke 7 2] State.reset))).map (fun t => t.flt) = some (some (.noHandler 7)) := by decide
/-- R41: `op_sel` of AB on a word whose opcode field says LB. -/
theorem test_invoke_misrouted :
    regIcOut 5 (step (withOps [.invoke 0 5] ((start [(5, 3)] [(4, 9)]).latch 0x0004))) = some (12, 1, .code .ab) := by decide
theorem test_reserved_word_refused :
    step (withOps [.feed 0x1C00] State.reset) = .refused (.reservedOpcode 7) := by rfl
theorem test_stuck_refuses :
    (nextOf (step (withOps [.regFileReset] (stuck.writeReg 3 7)))).map (fun t => (t.flt, t.readReg 3, t.out)) =
      some (some .irUnset, 7, .refused) := by decide
theorem test_coldReset_clears :
    (nextOf (step (withOps [.coldReset] ((stuck.writeReg 3 7).memWrite 4 4)))) = some State.reset := by decide
theorem test_regFileReset :
    (nextOf (step (withOps [.regFileReset] { (start [(3, 7)] [(0, 4)]).latch 0x1000 with ic := 9 }))).map
      (fun t => (t.readReg 3, t.ic, t.memRead 0, t.ir)) = some (0, 0, 4, some 0x1000) := by decide
theorem test_hostIcReset :
    (nextOf (step (withOps [.icReset] { start [(3, 7)] [] with ic := 5 }))).map (fun t => (t.ic, t.readReg 3)) =
      some (0, 7) := by decide
theorem test_hostMem :
    (nextOf (step (withOps [.memRead 0x107F] (start [] [(0x107F, 0x64)])))).map (fun t => t.out) =
      some (.word 0x64) := by decide
/-- Writing the value an unlisted cell reads as removes the entry. -/
theorem test_memory_canonical : ((State.reset.memWrite 5 1).memWrite 5 0).mem = [] ∧
    ((State.reset.memWrite 5 1).memWrite 3 2).mem = [(3, 2), (5, 1)] := by decide

/-! ## Witnesses: states and operands that meet each obligation's hypotheses -/

theorem wit_DecodeOfEncodeIsTheInstruction :
    Opcode6.reference.distinct = true ∧ (Instr.ab 2 3 0xFF).wellFormed = true ∧ (Instr.dstb 3 0xFF).wellFormed = true := by decide
theorem wit_EncodeOfDecodeIsTheWord : decode Opcode6.reference 0x1BFF = .instr (.mb 2 3 0xFF) := by decide
theorem wit_ReservedWordsAreRefusedByName :
    (withOps [.feed 0x1C00] State.reset).pending = [.feed 0x1C00] ∧
    ∀ h : Handler, State.reset.cfg.opcode6.of h ≠ opcodeOf 0x1C00 :=
  ⟨rfl, fun h => by cases h <;> decide⟩
theorem wit_AssembledWordDecodesToItsOperands :
    Config.default.wellFormed = true ∧ assemble Config.default .ab 15 255 = some 0x13FF ∧
    assemble Config.default .lb 12 0 = some 0x0000 := by decide
theorem wit_InvokeRunsTheSelectedHandler (o : OpSel) (rd : RegIdx) :
    (withOps [.invoke o rd] ready).flt = none ∧ (withOps [.invoke o rd] ready).ir = some 0x107F ∧
    (withOps [.invoke o rd] ready).pending = [.invoke o rd] := ⟨rfl, rfl, rfl⟩
theorem wit_OpcodeFieldOfTheLatchIsNotRead :
    (0xFC05 : Word).extractLsb' 0 10 = (0x0005 : Word).extractLsb' 0 10 ∧
    ∃ t, step { withOps [.invoke 0 2] State.reset with ir := some 0xFC05 } = .next t := ⟨by decide, _, rfl⟩
theorem wit_DoubleHandlersIgnoreRd : (4 : OpSel) = 0b100#3 ∧ (6 : OpSel) = 0b110#3 := by decide
theorem wit_BaseSelectorNamesItsRegister :
    State.reset.cfg.baseMap = BaseMap.high ∧ (startLow [] []).cfg.baseMap = BaseMap.low := by decide
theorem wit_CanonicalMemoriesReadingAlikeAreEqual :
    Memory.wf [(0, 1), (65535, 2)] ∧ Memory.wf (Memory.write [(65535, 2)] 0 1) ∧
    ∀ k, Memory.read [(0, 1), (65535, 2)] k = Memory.read (Memory.write [(65535, 2)] 0 1) k :=
  ⟨by decide, by decide, fun _ => rfl⟩
/-- A state in which an invocation completes, with R12 at the top of memory. -/
def readyTop : State := (start [(12, 0xFFFF)] [(0xFFFF, 1), (0x0000, 2)]).latch 0x107F

/-- `Rd` is the base register. -/
theorem wit_AbAddsTheOperandToRd : readyTop.Ready ∧ BaseMap.reg readyTop.cfg.baseMap 0 = 12 := by decide
/-- At the top of the counter, under `wrap`. -/
theorem wit_SbbSubtractsTheOperandFromRd : ({ readyTop with ic := 0xFFFF } : State).Ready := by decide
/-- Below the top of the counter, under `fault`. -/
theorem wit_MbKeepsTheLowProductInRd : ({ atTop with ic := 0xFFFE } : State).Ready := by decide
theorem wit_LbLoadsTheCellIntoRd : ready.Ready := by decide
/-- The second cell is 0x0000. -/
theorem wit_DlbLoadsTheFixedPair : readyTop.Ready ∧ readyTop.resolve 0 0 + 1#16 = 0 := by decide
/-- The stored cell, and another. -/
theorem wit_StbStoresRd : readyTop.Ready ∧ readyTop.resolve 0 1 = 0 ∧ (1 : Word) ≠ readyTop.resolve 0 1 := by decide
/-- Each of the two stored cells, and another. -/
theorem wit_DstbStoresTheFixedPair : readyTop.Ready ∧ readyTop.resolve 0 0 = 0xFFFF ∧ readyTop.resolve 0 0 + 1#16 = 0 ∧
    (1 : Word) ≠ readyTop.resolve 0 0 + 1#16 := by decide
theorem wit_RegisterWritersFrame :
    (∃ t, exec (.ab 2 0 0) ready = .next t) ∧ (∃ t, exec (.sbb 15 3 0xFF) ready = .next t) ∧
    (∃ t, exec (.mb 0 1 0) atTop = .next t) ∧ (∃ t, exec (.lb 2 0 0) stuck = .next t) :=
  ⟨⟨_, rfl⟩, ⟨_, rfl⟩, ⟨_, rfl⟩, ⟨_, rfl⟩⟩
theorem wit_DlbFrame : ∃ t, exec (.dlb 0 0) ready = .next t := ⟨_, rfl⟩
theorem wit_StbFrame : ∃ t, exec (.stb 2 0 0) ready = .next t ∧ (1 : Word) ≠ ready.resolve 0 0 := ⟨_, rfl, by decide⟩
theorem wit_DstbFrame : ∃ t, exec (.dstb 0 0xFF) ready = .next t ∧ (0 : Word) ≠ ready.resolve 0 0xFF ∧
    (0 : Word) ≠ secondCell (ready.resolve 0 0xFF) := ⟨_, rfl, by decide, by decide⟩
theorem wit_CompletedInvocationAdvancesTheCounter :
    ready.Ready ∧ (atTop.flt = none ∧ atTop.ir ≠ none ∧ atTop.ic = 0xFFFF#16 ∧ atTop.cfg.icOverflow = .fault) ∧
    ¬ stuck.Ready ∧ ∃ t, exec (.ab 2 0 0) stuck = .next t := ⟨by decide, by decide, by decide, _, rfl⟩
theorem wit_CompletionCodeNamesTheHandler :
    (ready.Ready ∧ ∃ t, exec (.ab 2 0 0) ready = .next t) ∧ ¬ atTop.Ready ∧ ∃ t, exec (.ab 2 0 0) atTop = .next t :=
  ⟨⟨by decide, _, rfl⟩, by decide, _, rfl⟩
/-- One state for each clause: no handler, latch UNSET, counter at its top, none of these. -/
theorem wit_FaultsAreReportedInOrder (o : OpSel) :
    (withOps [.invoke 7 2] atTop).flt = none ∧ ((withOps [.invoke o 2] State.reset).flt = none ∧ State.reset.ir = none) ∧
    ((withOps [.invoke o 2] atTop).flt = none ∧ atTop.ir ≠ none ∧ atTop.icOverflows) ∧
    (withOps [.invoke o 2] ready).flt = none ∧ ready.ir ≠ none ∧ ¬ ready.icOverflows :=
  ⟨rfl, ⟨rfl, rfl⟩, ⟨rfl, by decide, by decide⟩, rfl, by decide, by decide⟩
theorem wit_InstructionIsRefusedOrUnset : stuck.flt = some .irUnset ∧ State.reset.flt = none ∧ State.reset.ir = none := by
  decide
theorem wit_FaultedCoreRefusesEveryOperation :
    (withOps [.feed 0x107F] stuck).flt = some .irUnset ∧ HostOp.feed 0x107F ≠ .coldReset ∧
    ∀ w opc, HostOp.feed 0x107F = .feed w → decode stuck.cfg.opcode6 w ≠ .reserved opc :=
  ⟨rfl, by decide, fun _ opc h => by injection h with h; subst h; exact fun h => Decoded.noConfusion h⟩
theorem wit_OnlyColdResetClearsAFault :
    (∃ t, step (withOps [.regRead 0] stuck) = .next t) ∧ (∃ t, step (withOps [.coldReset] stuck) = .next t) ∧
    stuck.flt = some .irUnset := ⟨⟨_, rfl⟩, ⟨_, rfl⟩, rfl⟩
theorem wit_OnlyReservedWordsStopTheMachine :
    step (withOps [.feed 0xFFFF] State.reset) = .refused (.reservedOpcode 63) := by rfl
theorem wit_NoOperationIsPrivileged :
    State.reset.flt = none ∧ (withOps [.icReset] State.reset).pending ≠ [] ∧
    ∃ t, step (withOps [.icReset] State.reset) = .next t := ⟨rfl, by decide, _, rfl⟩
theorem wit_StepKeepsTheInvariant :
    (withOps [.memWrite 0xFFFF 1] State.reset).Inv ∧ ∃ t, step (withOps [.memWrite 0xFFFF 1] State.reset) = .next t :=
  ⟨⟨by decide, by decide, trivial⟩, _, rfl⟩
theorem wit_ConfigurationIsFixed : ∃ t, step (withOps [.coldReset] (startLow [] [])) = .next t := ⟨_, rfl⟩
theorem wit_CounterMovesOnlyByCompletionOrReset : ∃ t, step (withOps [.invoke 3 2] ready) = .next t := ⟨_, rfl⟩
theorem wit_OnlyTheHostWritesTheLatch : ∃ t, step (withOps [.setInstr 0xFFFF] State.reset) = .next t := ⟨_, rfl⟩
theorem wit_ColdResetLeavesResetValues : (withOps [.coldReset] stuck).pending = [.coldReset] := rfl
theorem wit_RegFileResetClearsRegistersAndCounter :
    (withOps [.regFileReset] ready).pending = [.regFileReset] ∧ ready.flt = none ∧ stuck.flt = some .irUnset :=
  ⟨rfl, rfl, rfl⟩
theorem wit_HostRegisterAccess : (withOps [.regRead 15] ready).flt = none ∧
    (withOps [.regRead 15] ready).pending = [.regRead 15] ∧ (withOps [.regWrite 0 1] ready).pending = [.regWrite 0 1] :=
  ⟨rfl, rfl, rfl⟩
theorem wit_HostCounterAccess : (withOps [.icRead] ready).flt = none ∧
    (withOps [.icRead] ready).pending = [.icRead] ∧ (withOps [.icReset] ready).pending = [.icReset] ∧
    ∃ t, step (withOps [.regWrite 0 5] ready) = .next t := ⟨rfl, rfl, rfl, _, rfl⟩
theorem wit_HostSetInstrLatchesAnyWord : (withOps [.setInstr 0xFFFF] ready).flt = none ∧
    (withOps [.setInstr 0xFFFF] ready).pending = [.setInstr 0xFFFF] := ⟨rfl, rfl⟩
theorem wit_HostMemoryPort : (withOps [.memRead 0] ready).flt = none ∧
    (withOps [.memRead 0] ready).pending = [.memRead 0] ∧
    (withOps [.memWrite 0xFFFF 0] ready).pending = [.memWrite 0xFFFF 0] := ⟨rfl, rfl, rfl⟩
theorem wit_HostReadSeesTheStore : (withOps [.memRead 0] ready).Ready ∧
    (withOps [.memRead 0] ready).pending = [.memRead 0] ∧ ∃ t, exec (.stb 2 0 0) (withOps [.memRead 0] ready) = .next t :=
  ⟨by decide, rfl, _, rfl⟩
theorem wit_StepRunsTheFedInstruction : (withOps [.feed 0x107F] State.reset).flt = none ∧
    (withOps [.feed 0x107F] State.reset).pending = [.feed 0x107F] ∧
    decode State.reset.cfg.opcode6 0x107F = .instr (.ab 2 0 0x7F) ∧
    decode State.reset.cfg.opcode6 (tableWord 16 0x107F) = .instr (.ab 2 0 0x7F) := by decide
theorem wit_FeedIsSetInstrThenInvoke : decode State.reset.cfg.opcode6 0x107F = .instr (.ab 2 0 0x7F) ∧
    (∀ r, (Instr.ab 2 0 0x7F).rd? = some r → 2 = r) ∧ ∀ r rd : RegIdx, (Instr.dlb 0 0).rd? = some r → rd = r :=
  ⟨by decide, fun _ h => Option.some.inj h, fun _ _ h => nomatch h⟩
/-- The words of 95 P1. -/
theorem wit_FedWordsAllComplete : State.reset.flt = none ∧ State.reset.cfg.icOverflow = .wrap ∧
    ∀ w ∈ [(0x0000 : Word), 0x1001, 0x0802], ∃ i, decode State.reset.cfg.opcode6 w = .instr i := by
  refine ⟨rfl, rfl, fun w h => ?_⟩
  simp only [List.mem_cons, List.not_mem_nil, or_false] at h
  rcases h with rfl | rfl | rfl
  exacts [⟨.lb 2 0 0, rfl⟩, ⟨.ab 2 0 1, rfl⟩, ⟨.stb 2 0 2, rfl⟩]
theorem wit_IdleCoreKeepsItsState : State.reset.pending = [] := rfl
theorem wit_ResultsDependOnCoreStateOnly :
    ready.x = (withOps [.icRead] (ready.latch 0)).x ∧ ready.flt = (withOps [.icRead] (ready.latch 0)).flt ∧
    (ready.ir = none ↔ (withOps [.icRead] (ready.latch 0)).ir = none) ∧ (∃ t, exec (.mb 2 0 0) ready = .next t) ∧
    ∃ t, exec (.mb 2 0 0) (withOps [.icRead] (ready.latch 0)) = .next t := ⟨rfl, rfl, by decide, ⟨_, rfl⟩, _, rfl⟩
theorem wit_RegistersDependOnTheReadCellsOnly :
    ready.memRead (ready.resolve 0 0) = State.memRead { ready with mem := [(2, 9)] } (ready.resolve 0 0) ∧
    ready.memRead (secondCell (ready.resolve 0 0)) =
      State.memRead { ready with mem := [(2, 9)] } (secondCell (ready.resolve 0 0)) ∧
    (∃ t, exec (.dlb 0 0) ready = .next t) ∧ ∃ t, exec (.dlb 0 0) { ready with mem := [(2, 9)] } = .next t :=
  ⟨by decide, by decide, ⟨_, rfl⟩, _, rfl⟩
theorem wit_LoadAfterStoreGivesTheStoredWord :
    ready.Ready ∧ ∃ t, exec (.stb 2 0 0) ready = .next t ∧ t.Ready := ⟨by decide, _, rfl, by decide⟩
theorem wit_DoubleLoadAfterDoubleStoreKeepsThePair :
    ready.Ready ∧ ∃ t, exec (.dstb 3 0xFF) ready = .next t ∧ t.Ready := ⟨by decide, _, rfl, by decide⟩
theorem wit_SubtractUndoesAdd : BaseMap.reg ready.cfg.baseMap 0 ≠ 2 ∧
    ready.Ready ∧ ∃ t, exec (.ab 2 0 0) ready = .next t ∧ t.Ready := ⟨by decide, by decide, _, rfl, by decide⟩

end Sys2Proof.Tests
end

/-! # The host's operations on the registers, the counter and the latch, and the completion code (spec/10_state.md R12 to R20) -/

namespace Sys2Proof.Machine

/-! ## A completed invocation -/

@[simp] theorem completed_out (i : Instr) (s : State) : (completed i s).out = .code i.handler := rfl

@[simp] theorem completed_ic (i : Instr) (s : State) : (completed i s).ic = s.ic + 1#16 := by
  obtain ⟨-, hic, -⟩ := bodyOf_rest i (s.resolve i.br i.disp) s
  rw [completed, State.emit_ic, advanceIc_eq, hic]

/-- R12 for one instruction: the counter stays, or advances by one with a completion code out. -/
theorem exec_ic {i : Instr} {s t : State} (h : exec i s = .next t) :
    t.ic = s.ic ∨ (t.ic = s.ic + 1#16 ∧ ∃ c, t.out = .code c) := by
  rcases exec_next_cases h with rfl | ⟨f, rfl⟩ | ⟨-, rfl⟩
  · exact .inl (State.refuse_ic s)
  · exact .inl (State.raise_ic s f)
  · exact .inr ⟨completed_ic i s, i.handler, completed_out i s⟩

/-! ## One operation of the host -/

/-- Where no fault is recorded, a step gives the state that the gate of its operation guards (R56). -/
theorem step_of_gated {s t : State} {op : HostOp} {rest : List HostOp} (hflt : s.flt = none)
    (hpend : s.pending = op :: rest)
    (hop : State.perform op { s with pending := rest } = .next (State.unlessStuck { s with pending := rest } t)) :
    step s = .next t := by
  rw [step_op hpend, dequeue_eq hpend, hop, State.unlessStuck_of_none (s := { s with pending := rest }) hflt]

/-- The gate keeps the counter where the state it guards does. -/
theorem State.unlessStuck_ic {s u : State} (h : u.ic = s.ic) : (s.unlessStuck u).ic = s.ic := by
  rcases s.unlessStuck_cases u with ⟨_, -, e⟩ | ⟨-, e⟩ <;> rw [e]
  · exact s.refuse_ic
  · exact h

/-- The gate keeps the counter or lets the guarded state's counter through. -/
theorem State.unlessStuck_ic_cases (s u : State) :
    (s.unlessStuck u).ic = s.ic ∨ (s.unlessStuck u).ic = u.ic := by
  rcases s.unlessStuck_cases u with ⟨_, -, e⟩ | ⟨-, e⟩ <;> rw [e]
  · exact .inl s.refuse_ic
  · exact .inr rfl

/-- An `Invoke` that gives a next state selects no handler, or is the instruction of the handler it selects (R42). -/
theorem State.invoke_next_cases {s t : State} {o : OpSel} {rd : RegIdx} (h : s.invoke o rd = .next t) :
    (Handler.ofOpSel o = none ∧ t = s.unlessStuck (s.raise (.noHandler o))) ∨
    ∃ c, Handler.ofOpSel o = some c ∧ exec (c.instr rd (s.ir.getD 0#16)) s = .next t := by
  unfold State.invoke at h
  cases ho : Handler.ofOpSel o with
  | none => rw [ho] at h; cases h; exact .inl ⟨rfl, rfl⟩
  | some c => rw [ho] at h; exact .inr ⟨c, rfl, h⟩

/-- A fed word that gives a next state decodes, and is its instruction with the word latched (R44, log 11). -/
theorem State.feed_next {s t : State} {w : Word} (h : s.feed w = .next t) :
    ∃ i, decode s.cfg.opcode6 w = .instr i ∧ exec i (s.hostSetInstr w) = .next t := by
  unfold State.feed at h
  cases hd : decode s.cfg.opcode6 w with
  | reserved opc => rw [hd] at h; cases h
  | instr i => rw [hd] at h; exact ⟨i, rfl, h⟩

theorem State.hostSetInstr_ic (w : Word) (s : State) : (s.hostSetInstr w).ic = s.ic := State.unlessStuck_ic rfl

/-- R12 and R17 for one operation: the counter stays, or advances by one with a completion code out, or is zeroed by one of
the three resets. -/
theorem perform_ic {op : HostOp} {s t : State} (h : s.perform op = .next t) :
    t.ic = s.ic ∨ (t.ic = s.ic + 1#16 ∧ ∃ c, t.out = .code c) ∨
    (t.ic = 0#16 ∧ (op = .icReset ∨ op = .regFileReset ∨ op = .coldReset)) := by
  cases op with
  | regRead | regWrite | icRead | setInstr | memRead | memWrite =>
    cases h
    exact .inl (State.unlessStuck_ic rfl)
  | icReset =>
    cases h
    exact (s.unlessStuck_ic_cases (s.clearIc.emit .nothing)).imp_right fun h0 => .inr ⟨h0, .inl rfl⟩
  | regFileReset =>
    cases h
    exact (s.unlessStuck_ic_cases (s.clearRegFile.emit .nothing)).imp_right fun h0 => .inr ⟨h0, .inr (.inl rfl)⟩
  | coldReset =>
    cases h
    exact .inr (.inr ⟨s.coldReset_ic, .inr (.inr rfl)⟩)
  | invoke o rd =>
    rcases State.invoke_next_cases h with ⟨-, rfl⟩ | ⟨c, -, he⟩
    · exact .inl (State.unlessStuck_ic (s.raise_ic _))
    · exact (exec_ic he).imp_right .inl
  | feed w =>
    obtain ⟨i, -, he⟩ := State.feed_next h
    have hic := exec_ic he
    rw [State.hostSetInstr_ic] at hic
    exact hic.imp_right .inl

/-! ## The obligations -/

/-- Settles O27: the output is read off the four ways an instruction ends (`exec_cases`). -/
theorem completionCodeNamesTheHandler : Obligations.CompletionCodeNamesTheHandler := by
  refine ⟨fun i s t h hready => ?_, fun i s t h hready c hc => ?_, ⟨rfl, rfl, rfl, rfl, rfl, rfl, rfl⟩⟩
  · rw [exec_of_ready hready] at h
    cases h
    exact completed_out i s
  · rcases exec_next_cases h with rfl | ⟨f, rfl⟩ | ⟨hr, -⟩
    · rw [State.refuse_out] at hc; cases hc
    · rw [State.raise_out] at hc; cases hc
    · exact hready hr

/-- Settles O41: both operations pass the gate, and a written register is read back at its own index only. -/
theorem hostRegisterAccess : Obligations.HostRegisterAccess := by
  intro s i v rest hflt
  refine ⟨fun hp => step_of_gated hflt hp rfl, fun hp => ⟨_, step_of_gated hflt hp rfl, fun r => ?_, rfl⟩⟩
  exact (State.writeReg_readReg { s with pending := rest } i v r).trans (if_congr eq_comm rfl rfl)

/-- Settles O42: read and reset pass the gate; what any operation leaves in the counter is `perform_ic`. -/
theorem hostCounterAccess : Obligations.HostCounterAccess := by
  intro s rest hflt
  refine ⟨fun hp => step_of_gated hflt hp rfl, fun hp => step_of_gated hflt hp rfl, fun op t hp hstep => ?_⟩
  rw [step_op hp] at hstep
  rcases perform_ic hstep with hic | ⟨-, hcode⟩ | ⟨h0, -⟩
  · exact .inl hic
  · exact .inr (.inr hcode)
  · exact .inr (.inl h0)

/-- Settles O43: the latch takes the word unchecked, once the operation passes the gate. -/
theorem hostSetInstrLatchesAnyWord : Obligations.HostSetInstrLatchesAnyWord :=
  fun _ _ _ hflt hp => step_of_gated hflt hp rfl

end Sys2Proof.Machine

/-! # Address resolution, the paged memory and the host's memory port (spec/20_memory.md R24 to R29) -/

namespace Sys2Proof

/-! ## The address fields of an instruction word (spec/30_encoding.md R39, R40) -/

theorem baseSelOf_toNat (w : Word) : (baseSelOf w).toNat = w.toNat / 256 % 4 := by
  rw [baseSelOf, BitVec.extractLsb'_toNat, Nat.shiftRight_eq_div_pow]

theorem dispOf_toNat (w : Word) : (dispOf w).toNat = w.toNat % 256 := by
  rw [dispOf, BitVec.extractLsb'_toNat, Nat.shiftRight_zero]

namespace Machine

/-- Zero-extension keeps a displacement's value, so none is negative (R40). -/
theorem zext16_toNat (d : Disp) : (zext16 d).toNat = d.toNat :=
  BitVec.toNat_setWidth_of_le (by decide)

/-- `Resolve` as an equation of natural numbers (R29). -/
theorem State.resolve_toNat (s : State) (br : BaseSel) (disp : Disp) :
    (s.resolve br disp).toNat = ((s.readReg (BaseMap.reg s.cfg.baseMap br)).toNat + disp.toNat) % 65536 := by
  rw [resolve_eq, BitVec.toNat_add, zext16_toNat]

/-! ## Page and offset (R24) -/

theorem pageOf_toNat (a : Word) : (pageOf a).toNat = a.toNat / 256 := by
  have ha := a.isLt
  rw [pageOf, BitVec.extractLsb'_toNat, Nat.shiftRight_eq_div_pow]
  omega

theorem offsetOf_toNat (a : Word) : (offsetOf a).toNat = a.toNat % 256 := by
  rw [offsetOf, BitVec.extractLsb'_toNat, Nat.shiftRight_zero]

@[simp] theorem pageOf_append (p o : BitVec 8) : pageOf (p ++ o) = p :=
  BitVec.extractLsb'_append_eq_left

@[simp] theorem offsetOf_append (p o : BitVec 8) : offsetOf (p ++ o) = o :=
  BitVec.extractLsb'_append_eq_right

/-- No two addresses share both page and offset. -/
theorem eq_of_pageOf_of_offsetOf {a b : Word} (hp : pageOf a = pageOf b) (ho : offsetOf a = offsetOf b) : a = b := by
  rw [← cellKey_inj, cellKey, cellKey, hp, ho]

/-! ## The obligations -/

/-- Settles O12: the address of a page and an offset is their concatenation, and a cell's place is its address. -/
theorem pagedMemoryIsAFlatArray : Obligations.PagedMemoryIsAFlatArray := by
  refine ⟨fun a => ⟨pageOf_toNat a, offsetOf_toNat a⟩, fun p o => ?_, fun s a => ?_⟩
  · refine ⟨p ++ o, ⟨pageOf_append p o, offsetOf_append p o⟩, fun b ⟨hp, ho⟩ => eq_of_pageOf_of_offsetOf ?_ ?_⟩
    · rw [hp, pageOf_append]
    · rw [ho, offsetOf_append]
  · rw [State.memRead, cellKey_eq]

/-- Settles O44: both operations pass the gate, and a written cell is read back at its own address only. -/
theorem hostMemoryPort : Obligations.HostMemoryPort := by
  intro s a v rest hflt
  refine ⟨fun hp => step_of_gated hflt hp rfl, fun hp => ⟨_, step_of_gated hflt hp rfl, fun b => ?_, rfl⟩⟩
  exact (State.memWrite_memRead { s with pending := rest } a v b).trans (if_congr eq_comm rfl rfl)

/-- Settles O10: the two fields of the word and `Resolve`, each as a natural number. -/
theorem effectiveAddressIsBasePlusDisplacement : Obligations.EffectiveAddressIsBasePlusDisplacement := by
  intro s w
  refine ⟨baseSelOf_toNat w, dispOf_toNat w, ?_⟩
  rw [State.resolve_toNat, dispOf_toNat]

end Machine

end Sys2Proof

/-! # Decode after encode, and the arithmetic instructions (spec/30_encoding.md R44, spec/40_arithmetic.md R48 to R50) -/

namespace Sys2Proof

/-! ## Decode after encode -/

/-- The handler of an instruction the reference decode can supply reads it back from its operands, whatever the opcode
field holds (R41, R43). -/
theorem Instr.handler_instr_wordOf {i : Instr} (hi : i.wellFormed = true) (opc : Opcode) :
    i.handler.instr acc (wordOf opc i.br i.disp) = i := by
  cases i with
  | dlb | dstb => simp [Instr.handler, Handler.instr, Instr.br, Instr.disp]
  | ab rd | sbb rd | mb rd | lb rd | stb rd =>
    obtain rfl : rd = acc := eq_of_beq hi
    simp [Instr.handler, Handler.instr, Instr.br, Instr.disp]

theorem decode_encode {t : Opcode6} {i : Instr} (d : t.distinct = true) (hi : i.wellFormed = true) :
    decode t (encode t i) = .instr i := by
  rw [decode, encode, opcodeOf_wordOf, Opcode6.handler?_of d]
  exact congrArg Decoded.instr (Instr.handler_instr_wordOf hi _)

theorem Opcode6.reference_distinct : Opcode6.reference.distinct = true := by decide

namespace Machine

/-! ## The three operations on words -/

/-- A word's signed value is the integer it was narrowed from, modulo 2^16 into the signed range. -/
theorem word_toInt (n : Int) : (word n).toInt = n.bmod 65536 := BitVec.toInt_ofInt n

theorem aluAdd_toInt (a b : Word) : (aluAdd a b).toInt = (a.toInt + b.toInt).bmod 65536 := word_toInt _

theorem aluSub_toInt (a b : Word) : (aluSub a b).toInt = (a.toInt - b.toInt).bmod 65536 := word_toInt _

theorem aluMul_toInt (a b : Word) : (aluMul a b).toInt = (a.toInt * b.toInt).bmod 65536 := word_toInt _

/-! ## Instructions that write one register -/

/-- The arithmetic datapath writes one register, from its old value and the cell at the address (R46). -/
theorem State.aluInto_eq (s : State) (f : Word → Word → Word) (rd : RegIdx) (ea : Word) :
    s.aluInto f rd ea = s.writeReg rd (f (s.readReg rd) (s.memRead ea)) := by
  rw [State.aluInto, State.memOperand_eq]

/-- Where an invocation completes and its body writes one register, that register, the counter and the output are all that
changes (R19). -/
theorem exec_of_bodyOf_eq_writeReg {i : Instr} {s : State} {rd : RegIdx} {v : Word} (hs : s.Ready)
    (hbody : bodyOf i (s.resolve i.br i.disp) s = s.writeReg rd v) :
    exec i s = .next { s with x := s.x.set rd v, ic := s.ic + 1#16, out := .code i.handler } := by
  have hic : (completed i s).ic = s.ic + 1#16 := completed_ic i s
  rw [exec_of_ready hs, ← hic, completed, hbody]
  rfl

/-! ## The obligations -/

/-- Settles O14: the word is an encoding of the instruction, and the body writes `aluAdd` of `Rd` and the cell. -/
theorem abAddsTheOperandToRd : Obligations.AbAddsTheOperandToRd :=
  ⟨Handler.ofOpSel_opSel .ab, fun br disp => decode_encode (i := .ab 2 br disp) Opcode6.reference_distinct rfl,
    fun _ _ _ s hs => ⟨aluAdd _ _, aluAdd_toInt _ _, exec_of_bodyOf_eq_writeReg hs (s.aluInto_eq aluAdd _ _)⟩⟩

/-- Settles O15: as AB, with `aluSub`, whose first argument is `Rd`. -/
theorem sbbSubtractsTheOperandFromRd : Obligations.SbbSubtractsTheOperandFromRd :=
  ⟨Handler.ofOpSel_opSel .sbb, fun br disp => decode_encode (i := .sbb 2 br disp) Opcode6.reference_distinct rfl,
    fun _ _ _ s hs => ⟨aluSub _ _, aluSub_toInt _ _, exec_of_bodyOf_eq_writeReg hs (s.aluInto_eq aluSub _ _)⟩⟩

/-- Settles O16: as AB, with `aluMul`. -/
theorem mbKeepsTheLowProductInRd : Obligations.MbKeepsTheLowProductInRd :=
  ⟨Handler.ofOpSel_opSel .mb, fun br disp => decode_encode (i := .mb 2 br disp) Opcode6.reference_distinct rfl,
    fun _ _ _ s hs => ⟨aluMul _ _, aluMul_toInt _ _, exec_of_bodyOf_eq_writeReg hs (s.aluInto_eq aluMul _ _)⟩⟩

end Machine

end Sys2Proof

/-! # The load and store instructions (spec/41_load_store.md R51 to R54) -/

namespace Sys2Proof.Machine

/-- Where an invocation completes, the body decides the registers and the memory, the counter advances, the completion code
goes out, and the rest stays (R19). -/
theorem exec_of_ready_eq {s : State} (hs : s.Ready) (i : Instr) :
    exec i s = .next { s with
      x := (bodyOf i (s.resolve i.br i.disp) s).x, mem := (bodyOf i (s.resolve i.br i.disp) s).mem,
      ic := s.ic + 1#16, out := .code i.handler } := by
  obtain ⟨hcfg, -, hir, hflt, hpend⟩ := bodyOf_rest i (s.resolve i.br i.disp) s
  rw [exec_of_ready hs]
  exact congrArg Host.Outcome.next (State.ext hcfg rfl (completed_ic i s) hir rfl hflt hpend rfl)

/-! ## The two double-word bodies -/

/-- R52: both cells come from the memory before either register is written. -/
theorem State.loadPair_x (s : State) (ea : Word) :
    (s.loadPair ea).x = (s.x.set 0 (s.memRead ea)).set 1 (s.memRead (ea + 1#16)) := by
  rw [← secondCell_eq]
  rfl

/-- R54: the second store leaves the first cell alone, also where the address wraps (R31). -/
theorem State.storePair_memRead (s : State) (ea a : Word) :
    (s.storePair ea).memRead a =
      if a = ea then s.readReg 0 else if a = ea + 1#16 then s.readReg 1 else s.memRead a := by
  rw [State.storePair, State.memWrite_memRead, State.memWrite_memRead, ← secondCell_eq]
  by_cases ha : a = ea
  · rw [if_pos ha, if_neg (ha ▸ secondCell_ne ea), if_pos ha.symm]
  · rw [if_neg ha, if_neg (Ne.symm ha)]
    exact if_congr eq_comm rfl rfl

/-! ## The obligations -/

/-- Settles O17: the word is an encoding of the instruction, and the body writes the cell into `Rd`. -/
theorem lbLoadsTheCellIntoRd : Obligations.LbLoadsTheCellIntoRd :=
  ⟨Handler.ofOpSel_opSel .lb, fun br disp => decode_encode (i := .lb 2 br disp) Opcode6.reference_distinct rfl,
    fun rd _ _ s hs => exec_of_bodyOf_eq_writeReg hs (congrArg (s.writeReg rd) (s.memOperand_eq _))⟩

/-- Settles O18: the body writes no memory, and the registers it leaves are `loadPair_x`. -/
theorem dlbLoadsTheFixedPair : Obligations.DlbLoadsTheFixedPair := by
  refine ⟨Handler.ofOpSel_opSel .dlb, fun br disp => decode_encode (i := .dlb br disp) Opcode6.reference_distinct rfl,
    fun br disp s hs => ?_⟩
  rw [← State.loadPair_x]
  exact exec_of_ready_eq hs (.dlb br disp)

/-- Settles O19: the body writes no register, and a stored cell is read back at its own address only. -/
theorem stbStoresRd : Obligations.StbStoresRd := by
  refine ⟨Handler.ofOpSel_opSel .stb, fun br disp => decode_encode (i := .stb 2 br disp) Opcode6.reference_distinct rfl,
    fun rd br disp s hs => ⟨_, exec_of_ready_eq hs (.stb rd br disp), fun a => ?_, rfl⟩⟩
  exact (s.memWrite_memRead _ _ a).trans (if_congr eq_comm rfl rfl)

/-- Settles O20: the body writes no register, and the cells it leaves are `storePair_memRead`. -/
theorem dstbStoresTheFixedPair : Obligations.DstbStoresTheFixedPair :=
  ⟨Handler.ofOpSel_opSel .dstb, fun br disp => decode_encode (i := .dstb br disp) Opcode6.reference_distinct rfl,
    fun br disp s hs => ⟨_, exec_of_ready_eq hs (.dstb br disp), s.storePair_memRead (s.resolve br disp), rfl⟩⟩

end Sys2Proof.Machine

/-! # Cold reset (spec/70_reset_and_hazards.md R65) -/

namespace Sys2Proof.Machine

/-- `ColdReset` passes no gate: whatever the fault record, a step performs it (R56, R65). -/
theorem step_coldReset {s : State} {rest : List HostOp} (h : s.pending = .coldReset :: rest) :
    step s = .next s.dequeue.coldReset :=
  step_op h

/-- The state after reset is its own cold reset, so what holds after every `ColdReset` holds of it. -/
theorem State.coldReset_reset : State.reset.coldReset = State.reset := rfl

/-- Settles O39: the step leaves `coldReset`, whose fields are the reset values, and `State.reset` is one such state. -/
theorem coldResetLeavesResetValues : Obligations.ColdResetLeavesResetValues := by
  refine ⟨fun s rest h => ⟨_, step_coldReset h, ?after⟩, ?reset⟩
  case after =>
    exact ⟨State.coldReset_readReg _, State.coldReset_ic _, State.coldReset_memRead _, State.coldReset_ir _,
      State.coldReset_flt _, State.coldReset_cfg _⟩
  case reset =>
    rw [← State.coldReset_reset]
    exact ⟨State.coldReset_readReg _, State.coldReset_ic _, State.coldReset_memRead _, State.coldReset_ir _,
      State.coldReset_flt _⟩

end Sys2Proof.Machine

/-! # Encoder, decoder and assembler (spec/30_encoding.md R41 to R47) -/

namespace Sys2Proof

/-! ## The instruction a handler reads from a word (R41, R43) -/

@[simp] theorem Handler.instr_handler (h : Handler) (rd : RegIdx) (w : Word) : (h.instr rd w).handler = h := by
  cases h <;> rfl

@[simp] theorem Handler.instr_br (h : Handler) (rd : RegIdx) (w : Word) : (h.instr rd w).br = baseSelOf w := by
  cases h <;> rfl

@[simp] theorem Handler.instr_disp (h : Handler) (rd : RegIdx) (w : Word) : (h.instr rd w).disp = dispOf w := by
  cases h <;> rfl

theorem Handler.instr_acc_wellFormed (h : Handler) (w : Word) : (h.instr acc w).wellFormed = true := by
  cases h <;> rfl

/-- The `rd` input matters only to a handler whose instruction carries it (R43). -/
theorem Handler.instr_eq_of_rd? {h : Handler} {rd rd' : RegIdx} {w : Word}
    (hrd : ∀ r, (h.instr rd' w).rd? = some r → rd = r) : h.instr rd w = h.instr rd' w := by
  cases h with
  | dlb | dstb => rfl
  | ab | sbb | mb | lb | stb => rw [hrd rd' rfl]

/-- BR and DISP lie below bit 10, so a handler reads the same instruction from words that agree there (R41). -/
theorem Handler.instr_eq_of_low_eq (h : Handler) (rd : RegIdx) {w w' : Word}
    (hw : w.extractLsb' 0 10 = w'.extractLsb' 0 10) : h.instr rd w = h.instr rd w' := by
  have field {start len : Nat} (hl : start + len ≤ 10) : w.extractLsb' start len = w'.extractLsb' start len := by
    apply BitVec.eq_of_getLsbD_eq
    intro j hj
    have hbit := congrArg (·.getLsbD (start + j)) hw
    simpa [show start + j < 10 by omega, hj] using hbit
  have hbr : baseSelOf w = baseSelOf w' := field (by decide)
  have hdisp : dispOf w = dispOf w' := field (by decide)
  cases h <;> simp only [Handler.instr, hbr, hdisp]

/-! ## The reference decode (R44, R45) -/

/-- No row holds an opcode value that differs from all seven. -/
theorem Opcode6.handler?_eq_none {t : Opcode6} {opc : Opcode} (hne : ∀ h, t.of h ≠ opc) : t.handler? opc = none :=
  Option.eq_none_iff_forall_not_mem.2 fun h e => hne h (of_eq_of_handler? e)

theorem decode_of_handler? {t : Opcode6} {w : Word} {h : Handler} (e : t.handler? (opcodeOf w) = some h) :
    decode t w = .instr (h.instr acc w) := by
  rw [decode, e]

theorem decode_of_no_row {t : Opcode6} {w : Word} (e : t.handler? (opcodeOf w) = none) :
    decode t w = .reserved (opcodeOf w) := by
  rw [decode, e]

/-- A word decodes to the instruction of its row's handler, with `ACC` for `rd`. -/
theorem exists_handler_of_decode {t : Opcode6} {w : Word} {i : Instr} (hd : decode t w = .instr i) :
    ∃ h, t.of h = opcodeOf w ∧ i = h.instr acc w := by
  cases e : t.handler? (opcodeOf w) with
  | none => rw [decode_of_no_row e] at hd; cases hd
  | some h =>
    rw [decode_of_handler? e] at hd
    cases hd
    exact ⟨h, Opcode6.of_eq_of_handler? e, rfl⟩

/-- The reserved value a refusal names is the word's own opcode field (R45). -/
theorem eq_opcodeOf_of_decode_reserved {t : Opcode6} {w : Word} {opc : Opcode} (hd : decode t w = .reserved opc) :
    opc = opcodeOf w := by
  cases e : t.handler? (opcodeOf w) with
  | none => rw [decode_of_no_row e] at hd; cases hd; rfl
  | some h => rw [decode_of_handler? e] at hd; cases hd

/-- The decoder as one chain of comparisons on the opcode field. -/
theorem decode_eq_chain (t : Opcode6) (w : Word) : decode t w =
    if opcodeOf w = t.ab then .instr (.ab acc (baseSelOf w) (dispOf w))
    else if opcodeOf w = t.sbb then .instr (.sbb acc (baseSelOf w) (dispOf w))
    else if opcodeOf w = t.mb then .instr (.mb acc (baseSelOf w) (dispOf w))
    else if opcodeOf w = t.lb then .instr (.lb acc (baseSelOf w) (dispOf w))
    else if opcodeOf w = t.dlb then .instr (.dlb (baseSelOf w) (dispOf w))
    else if opcodeOf w = t.stb then .instr (.stb acc (baseSelOf w) (dispOf w))
    else if opcodeOf w = t.dstb then .instr (.dstb (baseSelOf w) (dispOf w))
    else .reserved (opcodeOf w) := by
  rw [decode, Opcode6.handler?]
  split_ifs <;> rfl

/-- Words are masked field by field. -/
theorem wordOf_and_wordOf (opc opc' : Opcode) (br br' : BaseSel) (disp disp' : Disp) :
    wordOf opc br disp &&& wordOf opc' br' disp' = wordOf (opc &&& opc') (br &&& br') (disp &&& disp') :=
  BitVec.and_append.trans (congrArg (· ++ (disp &&& disp')) BitVec.and_append)

/-- The table's mask keeps the opcode field and clears BR and DISP. -/
theorem and_mask_eq_wordOf (w : Word) : w &&& 0xFC00#16 = wordOf (opcodeOf w) 0#2 0#8 := by
  have hmask : 0xFC00#16 = wordOf (BitVec.allOnes 6) 0#2 0#8 := by decide
  calc w &&& 0xFC00#16
    _ = wordOf (opcodeOf w) (baseSelOf w) (dispOf w) &&& wordOf (BitVec.allOnes 6) 0#2 0#8 := by
      rw [wordOf_fields, hmask]
    _ = wordOf (opcodeOf w) 0#2 0#8 := by
      rw [wordOf_and_wordOf, BitVec.and_allOnes, BitVec.and_zero, BitVec.and_zero]

/-- An opcode comparison is the comparison of the table's match and mask (R44). -/
theorem opcodeOf_eq_iff_and_mask_eq (w : Word) (opc : Opcode) :
    opcodeOf w = opc ↔ w &&& 0xFC00#16 = wordOf opc 0#2 0#8 := by
  rw [and_mask_eq_wordOf]
  refine ⟨fun e => by rw [e], fun e => ?_⟩
  have := congrArg opcodeOf e
  rwa [opcodeOf_wordOf, opcodeOf_wordOf] at this

/-! ## The assembler (R47) -/

/-- A selector that is found names its register (R9, R39). -/
theorem BaseMap.reg_of_selector? {m : BaseMap} {rb : RegIdx} {br : BaseSel} (e : BaseMap.selector? m rb = some br) :
    BaseMap.reg m br = rb := by
  unfold BaseMap.selector? at e
  split_ifs at e with h0 h1 h2 h3 <;> cases e
  exacts [h0, h1, h2, h3]

/-- A selector is found exactly for the four base registers. -/
theorem BaseMap.selector?_isSome_iff (m : BaseMap) (rb : RegIdx) :
    (BaseMap.selector? m rb).isSome = true ↔ rb ∈ m.toList := by
  rw [Vector.mem_toList_iff, Vector.mem_iff_getElem]
  unfold BaseMap.selector?
  constructor
  · intro e
    split_ifs at e with h0 h1 h2 h3
    exacts [⟨0, by decide, h0⟩, ⟨1, by decide, h1⟩, ⟨2, by decide, h2⟩, ⟨3, by decide, h3⟩, absurd e (by decide)]
  · rintro ⟨j, hj, e⟩
    split_ifs with h0 h1 h2 h3
    case neg => interval_cases j; exacts [absurd e h0, absurd e h1, absurd e h2, absurd e h3]
    all_goals rfl

/-- R12 to R15 by default, R0 to R3 by the alternative map (R9). -/
theorem BaseMap.reg_high (br : BaseSel) : BaseMap.reg BaseMap.high br = Fin.ofNat 16 (12 + br.toNat) := by
  revert br
  decide

theorem BaseMap.reg_low (br : BaseSel) : BaseMap.reg BaseMap.low br = Fin.ofNat 16 br.toNat := by
  revert br
  decide

/-- A word assembled from a handler's opcode, a selector and a displacement decodes to the handler on those operands. -/
theorem decode_wordOf {t : Opcode6} (d : t.distinct = true) (h : Handler) (br : BaseSel) (disp : Disp) :
    decode t (wordOf (t.of h) br disp) = .instr (h.instr acc (wordOf (t.of h) br disp)) :=
  decode_of_handler? (by rw [opcodeOf_wordOf, Opcode6.handler?_of d])

/-- An assembled word: the handler's opcode, a selector that names the base register, a displacement in range. -/
theorem assemble_eq_some_iff {c : Config} {h : Handler} {rb : RegIdx} {disp : Nat} {w : Word} :
    assemble c h rb disp = some w ↔ ∃ br, BaseMap.selector? c.baseMap rb = some br ∧ disp ≤ 255 ∧
      wordOf (c.opcode6.of h) br (BitVec.ofNat 8 disp) = w := by
  unfold assemble
  cases BaseMap.selector? c.baseMap rb with
  | none => simp
  | some br => simp

theorem assemble_isSome_iff {c : Config} {h : Handler} {rb : RegIdx} {disp : Nat} :
    (assemble c h rb disp).isSome = true ↔ rb ∈ c.baseMap.toList ∧ disp ≤ 255 := by
  simp only [← BaseMap.selector?_isSome_iff, Option.isSome_iff_exists, assemble_eq_some_iff]
  exact ⟨fun ⟨_, br, hbr, hle, _⟩ => ⟨⟨br, hbr⟩, hle⟩, fun ⟨⟨br, hbr⟩, hle⟩ => ⟨_, br, hbr, hle, rfl⟩⟩

/-! ## The obligations -/

/-- Settles O3: `decode_encode`, the row found by the opcode field and the operands by the other two. -/
theorem decodeOfEncodeIsTheInstruction : Obligations.DecodeOfEncodeIsTheInstruction :=
  fun _ _ => decode_encode

/-- Settles O2: the decoder's chain of opcode comparisons, each as the table's match and mask. -/
theorem referenceDecodeFollowsTheTable : Obligations.ReferenceDecodeFollowsTheTable := by
  intro w
  rw [decode_eq_chain]
  simp only [opcodeOf_eq_iff_and_mask_eq]
  rfl

/-- Settles O4: the handler's row gives the opcode field back, and a word is its three fields. -/
theorem encodeOfDecodeIsTheWord : Obligations.EncodeOfDecodeIsTheWord := by
  intro t w i hd
  obtain ⟨h, hopc, rfl⟩ := exists_handler_of_decode hd
  refine ⟨h.instr_acc_wellFormed w, ?_⟩
  rw [encode, Handler.instr_handler, Handler.instr_br, Handler.instr_disp, hopc, wordOf_fields]

/-- Settles O6: `assemble_isSome_iff`, and the assembled word's fields are the operands. -/
theorem assembledWordDecodesToItsOperands : Obligations.AssembledWordDecodesToItsOperands := by
  intro c h rb disp hc
  refine ⟨assemble_isSome_iff, fun w hw => ?_⟩
  obtain ⟨br, hbr, hle, rfl⟩ := assemble_eq_some_iff.1 hw
  have hdistinct : c.opcode6.distinct = true := (Bool.and_eq_true_iff.1 hc).2
  refine ⟨_, decode_wordOf hdistinct h br _, Handler.instr_handler .., Handler.instr_acc_wellFormed .., ?_, ?_⟩
  · rw [Handler.instr_br, baseSelOf_wordOf, BaseMap.reg_of_selector? hbr]
  · rw [Handler.instr_disp, dispOf_wordOf, BitVec.toNat_ofNat, Nat.mod_eq_of_lt (by omega)]

/-- Settles O1: each word is one concrete decode. -/
theorem writtenWordsDecode : Obligations.WrittenWordsDecode := by
  refine ⟨?_, ?_, ?_, ?_, ?_, ?_, ?_, ?_⟩ <;> decide

end Sys2Proof

/-! # Faults and the operations of the host (spec/60_exceptions.md R56 to R61, spec/30_encoding.md R42) -/

namespace Sys2Proof

/-! ## `op_sel` (R42) -/

theorem Handler.opSel_of_ofOpSel {o : OpSel} {h : Handler} (e : Handler.ofOpSel o = some h) : h.opSel = o := by
  unfold Handler.ofOpSel at e
  split_ifs at e with h0 h1 h2 h3 h4 h5 h6 <;> cases e
  exacts [h0.symm, h1.symm, h2.symm, h3.symm, h4.symm, h5.symm, h6.symm]

theorem Handler.ofOpSel_eq_none_iff {o : OpSel} : Handler.ofOpSel o = none ↔ o = 0b111#3 := by
  revert o
  decide

namespace Machine

/-! ## One instruction, way by way -/

theorem exec_of_faulted {s : State} {f : Fault} (hflt : s.flt = some f) (i : Instr) : exec i s = .next s.refuse := by
  rw [exec_eq_invocation, State.invocation, State.unlessStuck_of_some hflt]

theorem exec_of_unset {s : State} (hflt : s.flt = none) (hir : s.ir = none) (i : Instr) :
    exec i s = .next (s.raise .irUnset) := by
  rw [exec_eq_invocation, State.invocation, State.unlessStuck_of_none hflt, if_pos hir]

theorem exec_of_overflow {s : State} (hflt : s.flt = none) (hir : s.ir ≠ none) (hic : s.icOverflows) (i : Instr) :
    exec i s = .next (s.raise (.icOverflow s.ic)) := by
  rw [exec_eq_invocation, State.invocation, State.unlessStuck_of_none hflt, if_neg hir, if_pos hic]

/-- An instruction always answers a next state (log 8, log 9). -/
theorem exec_next (i : Instr) (s : State) : ∃ t, exec i s = .next t := ⟨_, exec_eq_invocation i s⟩

@[simp] theorem completed_cfg (i : Instr) (s : State) : (completed i s).cfg = s.cfg := by
  obtain ⟨hcfg, -, -, -, -⟩ := bodyOf_rest i (s.resolve i.br i.disp) s
  exact hcfg

@[simp] theorem completed_ir (i : Instr) (s : State) : (completed i s).ir = s.ir := by
  obtain ⟨-, -, hir, -, -⟩ := bodyOf_rest i (s.resolve i.br i.disp) s
  exact hir

@[simp] theorem completed_flt (i : Instr) (s : State) : (completed i s).flt = s.flt := by
  obtain ⟨-, -, -, hflt, -⟩ := bodyOf_rest i (s.resolve i.br i.disp) s
  exact hflt

@[simp] theorem completed_pending (i : Instr) (s : State) : (completed i s).pending = s.pending := by
  obtain ⟨-, -, -, -, hpending⟩ := bodyOf_rest i (s.resolve i.br i.disp) s
  exact hpending

/-- What a refusal, a recorded fault and a completion all keep, an instruction keeps. -/
theorem exec_keeps {α : Type} {read : State → α} {i : Instr} {s t : State} (h : exec i s = .next t)
    (hrefuse : read s.refuse = read s) (hraise : ∀ f, read (s.raise f) = read s)
    (hcompleted : read (completed i s) = read s) : read t = read s := by
  rcases exec_next_cases h with rfl | ⟨f, rfl⟩ | ⟨-, rfl⟩
  exacts [hrefuse, hraise f, hcompleted]

/-- No instruction writes the configuration, the latch or the pending operations (R13, R65). -/
theorem exec_cfg {i : Instr} {s t : State} (h : exec i s = .next t) : t.cfg = s.cfg :=
  exec_keeps h s.refuse_cfg s.raise_cfg (completed_cfg i s)

theorem exec_ir {i : Instr} {s t : State} (h : exec i s = .next t) : t.ir = s.ir :=
  exec_keeps h s.refuse_ir s.raise_ir (completed_ir i s)

theorem exec_pending {i : Instr} {s t : State} (h : exec i s = .next t) : t.pending = s.pending :=
  exec_keeps h s.refuse_pending s.raise_pending (completed_pending i s)

/-- With no fault recorded an instruction is not refused (R56). -/
theorem exec_out_ne_refused {i : Instr} {s t : State} (hflt : s.flt = none) (h : exec i s = .next t) :
    t.out ≠ .refused := by
  rcases exec_cases i s with ⟨f, hf, -⟩ | ⟨-, -, e⟩ | ⟨-, -, -, e⟩ | ⟨-, e⟩
  · exact absurd (hflt.symm.trans hf) (by simp)
  all_goals
    rw [e] at h
    cases h
    exact Output.noConfusion

/-! ## One operation -/

/-- What holds of the refused state and of the guarded one holds of what the gate lets through (R56). -/
theorem State.unlessStuck_elim {P : State → Prop} {s t : State} (hrefused : ∀ f, s.flt = some f → P s.refuse)
    (hpassed : s.flt = none → P t) : P (s.unlessStuck t) := by
  rcases s.unlessStuck_cases t with ⟨f, hf, e⟩ | ⟨hf, e⟩ <;> rw [e]
  exacts [hrefused f hf, hpassed hf]

/-- A step that answers a next state is idle, or one operation that does. -/
theorem step_next_cases {s t : State} (h : step s = .next t) :
    (s.pending = [] ∧ t = s) ∨ ∃ op rest, s.pending = op :: rest ∧ s.dequeue.perform op = .next t := by
  rcases step_cases s with ⟨hp, e⟩ | ⟨op, rest, hp, e⟩ <;> rw [e] at h
  · cases h
    exact .inl ⟨hp, rfl⟩
  · exact .inr ⟨op, rest, hp, h⟩

/-- A step performs the oldest pending operation on the state without it. -/
theorem step_eq_perform {s : State} {op : HostOp} {rest : List HostOp} (h : s.pending = op :: rest) :
    step s = State.perform op { s with pending := rest } := by
  rw [step_op h, dequeue_eq h]

/-- What the refused state and the guarded one both keep, the gate keeps. -/
theorem State.unlessStuck_keeps {α : Type} (read : State → α) {s t : State} (hrefuse : read s.refuse = read s)
    (ht : read t = read s) : read (s.unlessStuck t) = read s :=
  State.unlessStuck_elim (P := fun u => read u = read s) (fun _ _ => hrefuse) fun _ => ht

theorem State.invoke_of_noHandler {s : State} {o : OpSel} (ho : Handler.ofOpSel o = none) (rd : RegIdx) :
    s.invoke o rd = .next (s.unlessStuck (s.raise (.noHandler o))) := by
  rw [State.invoke, ho]

theorem State.invoke_of_handler {s : State} {o : OpSel} {h : Handler} (ho : Handler.ofOpSel o = some h) (rd : RegIdx) :
    s.invoke o rd = exec (h.instr rd (s.ir.getD 0#16)) s := by
  rw [State.invoke, ho]

/-- With a word latched, BR and DISP are the latched word's (R43). -/
theorem State.invoke_of_latched {s : State} {o : OpSel} {h : Handler} {w : Word} (ho : Handler.ofOpSel o = some h)
    (hir : s.ir = some w) (rd : RegIdx) : s.invoke o rd = exec (h.instr rd w) s := by
  rw [State.invoke_of_handler ho, hir, Option.getD_some]

theorem State.feed_of_instr {s : State} {w : Word} {i : Instr} (hd : decode s.cfg.opcode6 w = .instr i) :
    s.feed w = exec i (s.hostSetInstr w) := by
  rw [State.feed, hd]

theorem State.feed_of_reserved {s : State} {w : Word} {opc : Opcode} (hd : decode s.cfg.opcode6 w = .reserved opc) :
    s.feed w = .refused (.reservedOpcode opc) := by
  rw [State.feed, hd]

theorem State.hostSetInstr_of_none {s : State} (hflt : s.flt = none) (w : Word) :
    s.hostSetInstr w = (s.latch w).emit .nothing :=
  State.unlessStuck_of_none hflt _

theorem State.hostSetInstr_of_some {s : State} {f : Fault} (hflt : s.flt = some f) (w : Word) :
    s.hostSetInstr w = s.refuse :=
  State.unlessStuck_of_some hflt _

/-- An operation answers a next state, or feeds a reserved word and is refused by name (R45, log 8, log 9). -/
theorem perform_cases (op : HostOp) (s : State) :
    (∃ t, s.perform op = .next t) ∨
    ∃ w, op = .feed w ∧ decode s.cfg.opcode6 w = .reserved (opcodeOf w) ∧
      s.perform op = .refused (.reservedOpcode (opcodeOf w)) := by
  cases op with
  | feed w =>
    cases hd : decode s.cfg.opcode6 w with
    | instr i =>
      obtain ⟨t, ht⟩ := exec_next i (s.hostSetInstr w)
      exact .inl ⟨t, (State.feed_of_instr hd).trans ht⟩
    | reserved opc =>
      obtain rfl := eq_opcodeOf_of_decode_reserved hd
      exact .inr ⟨w, rfl, hd, State.feed_of_reserved hd⟩
  | invoke o rd =>
    cases ho : Handler.ofOpSel o with
    | none => exact .inl ⟨_, State.invoke_of_noHandler ho rd⟩
    | some h =>
      obtain ⟨t, ht⟩ := exec_next (h.instr rd (s.ir.getD 0#16)) s
      exact .inl ⟨t, (State.invoke_of_handler ho rd).trans ht⟩
  | regRead | regWrite | icRead | icReset | setInstr | memRead | memWrite | coldReset | regFileReset =>
    exact .inl ⟨_, rfl⟩

/-- A step answers a next state, or feeds a reserved word and is refused by name. -/
theorem step_outcomes (s : State) :
    (∃ t, step s = .next t) ∨ ∃ w rest, s.pending = .feed w :: rest ∧
      decode s.cfg.opcode6 w = .reserved (opcodeOf w) ∧ step s = .refused (.reservedOpcode (opcodeOf w)) := by
  rcases step_cases s with ⟨-, e⟩ | ⟨op, rest, hp, e⟩
  · exact .inl ⟨s, e⟩
  · rw [e]
    rcases perform_cases op s.dequeue with ht | ⟨w, rfl, hd, he⟩
    exacts [.inl ht, .inr ⟨w, rest, hp, hd, he⟩]

/-- While a fault is recorded, an operation other than `ColdReset` that answers a next state is refused (R56). -/
theorem perform_of_faulted {op : HostOp} {s t : State} {f : Fault} (hflt : s.flt = some f) (hop : op ≠ .coldReset)
    (h : s.perform op = .next t) : t = s.refuse := by
  cases op with
  | coldReset => exact absurd rfl hop
  | invoke o rd =>
    rcases State.invoke_next_cases h with ⟨-, rfl⟩ | ⟨c, -, he⟩
    · exact State.unlessStuck_of_some hflt _
    · rw [exec_of_faulted hflt] at he
      cases he
      rfl
  | feed w =>
    obtain ⟨i, -, he⟩ := State.feed_next h
    rw [State.hostSetInstr_of_some hflt, exec_of_faulted (s := s.refuse) hflt] at he
    cases he
    rfl
  | regRead | regWrite | icRead | icReset | setInstr | memRead | memWrite | regFileReset =>
    cases h
    exact State.unlessStuck_of_some hflt _

/-! ## The obligations -/

/-- Settles O5: no row of the table holds the opcode, so the decoder answers reserved. -/
theorem reservedWordsAreRefusedByName : Obligations.ReservedWordsAreRefusedByName := by
  intro s w rest hp hrow
  rw [step_eq_perform hp]
  exact State.feed_of_reserved (decode_of_no_row (Opcode6.handler?_eq_none hrow))

/-- Settles O29: two of the four ways an instruction ends. -/
theorem instructionIsRefusedOrUnset : Obligations.InstructionIsRefusedOrUnset :=
  ⟨fun i _ _ hflt => exec_of_faulted hflt i, fun i _ hflt hir => exec_of_unset hflt hir i⟩

/-- Settles O32: only a fed reserved word gives no next state (`step_outcomes`). -/
theorem onlyReservedWordsStopTheMachine : Obligations.OnlyReservedWordsStopTheMachine := by
  refine ⟨fun s r h => ?_, fun s r h => ?_⟩
  · rcases step_outcomes s with ⟨t, e⟩ | ⟨w, rest, hp, hd, e⟩ <;> rw [e] at h <;> cases h
  · rcases step_outcomes s with ⟨t, e⟩ | ⟨w, rest, hp, hd, e⟩ <;> rw [e] at h <;> cases h
    exact ⟨w, rest, hp, hd, rfl⟩

/-- Settles O30: the operation answers a next state, since the fed word decodes, and that state is the refused one. -/
theorem faultedCoreRefusesEveryOperation : Obligations.FaultedCoreRefusesEveryOperation := by
  intro s f op rest hflt hp hop hdecodes
  rw [step_eq_perform hp]
  rcases perform_cases op { s with pending := rest } with ⟨t, ht⟩ | ⟨w, hw, hd, -⟩
  · rw [ht, perform_of_faulted (s := { s with pending := rest }) hflt hop ht]
    rfl
  · exact absurd hd (hdecodes w _ hw)

/-- Settles O31: a step is idle, performs `ColdReset`, or is refused. -/
theorem onlyColdResetClearsAFault : Obligations.OnlyColdResetClearsAFault := by
  intro s t f hflt h
  rcases step_next_cases h with ⟨-, rfl⟩ | ⟨op, rest, hp, hop⟩
  · exact .inr ⟨hflt, rfl, rfl, rfl, rfl⟩
  · by_cases hcold : op = .coldReset
    · exact .inl ⟨rest, hcold ▸ hp⟩
    · rw [perform_of_faulted (s := s.dequeue) hflt hcold hop]
      exact .inr ⟨hflt, rfl, rfl, rfl, rfl⟩

/-- Settles O7: the table of seven values, on the latched word; `NoHandler` passes the gate. -/
theorem invokeRunsTheSelectedHandler : Obligations.InvokeRunsTheSelectedHandler := by
  intro s o rd rest w hflt hir hp
  rw [step_eq_perform hp]
  cases ho : Handler.ofOpSel o with
  | none =>
    obtain rfl := Handler.ofOpSel_eq_none_iff.1 ho
    exact (State.invoke_of_noHandler ho rd).trans
      (congrArg Host.Outcome.next (State.unlessStuck_of_none (s := { s with pending := rest }) hflt _))
  | some h =>
    obtain rfl := Handler.opSel_of_ofOpSel ho
    refine (State.invoke_of_latched (s := { s with pending := rest }) ho hir rd).trans ?_
    cases h <;> rfl

/-- Settles O9: the instruction of either handler carries no `rd`. -/
theorem doubleHandlersIgnoreRd : Obligations.DoubleHandlersIgnoreRd := by
  rintro s o rd rd' rest (rfl | rfl) <;> rfl

end Machine

end Sys2Proof

/-! # The invariant, and what no step changes (spec/10_state.md R12, R13, spec/60_exceptions.md R56, R61) -/

namespace Sys2Proof.Machine

/-! ## The invariant -/

/-- Where no fault is recorded there is nothing for the fault record to be false about. -/
theorem State.inv_of_no_fault {s : State} (hmem : Memory.wf s.mem) (hcfg : s.cfg.wellFormed = true)
    (hflt : s.flt = none) : s.Inv :=
  ⟨hmem, hcfg, by rw [State.FaultRecordTrue, hflt]; trivial⟩

/-- The invariant does not speak of the pending operations or the output. -/
theorem State.Inv.dequeue {s : State} (h : s.Inv) : s.dequeue.Inv := ⟨h.mem, h.cfg, h.flt⟩

theorem State.Inv.refuse {s : State} (h : s.Inv) : s.refuse.Inv := ⟨h.mem, h.cfg, h.flt⟩

/-- The gate keeps the invariant where the state it guards meets it. -/
theorem State.Inv.unlessStuck {s t : State} (h : s.Inv) (ht : s.flt = none → t.Inv) : (s.unlessStuck t).Inv :=
  State.unlessStuck_elim (fun _ _ => h.refuse) ht

theorem State.Inv.hostSetInstr {s : State} (h : s.Inv) (w : Word) : (s.hostSetInstr w).Inv :=
  h.unlessStuck fun hflt => State.inv_of_no_fault h.mem h.cfg hflt

/-- A raised fault is true of the state it freezes; a body keeps the canonical form and raises none. -/
theorem exec_inv {i : Instr} {s t : State} (hs : s.Inv) (h : exec i s = .next t) : t.Inv := by
  rcases exec_cases i s with ⟨_, -, e⟩ | ⟨-, hir, e⟩ | ⟨-, -, ⟨hic, hcfg⟩, e⟩ | ⟨⟨hflt, -, -⟩, e⟩ <;>
    rw [e] at h <;> cases h
  · exact hs.refuse
  · exact ⟨hs.mem, hs.cfg, hir⟩
  · exact ⟨hs.mem, hs.cfg, rfl, hic, hcfg⟩
  · exact State.inv_of_no_fault (bodyOf_wf i _ hs.mem) (completed_cfg i s ▸ hs.cfg) ((completed_flt i s).trans hflt)

/-- One operation keeps the invariant: memory is written by `MemWrite` only, a fault raised only where it is true. -/
theorem perform_inv {op : HostOp} {s t : State} (hs : s.Inv) (h : s.perform op = .next t) : t.Inv := by
  cases op with
  | regRead | regWrite | icRead | icReset | memRead | regFileReset =>
    cases h
    exact hs.unlessStuck fun hflt => State.inv_of_no_fault hs.mem hs.cfg hflt
  | setInstr w =>
    cases h
    exact hs.hostSetInstr w
  | memWrite a v =>
    cases h
    exact hs.unlessStuck fun hflt => State.inv_of_no_fault (State.memWrite_wf a v hs.mem) hs.cfg hflt
  | coldReset =>
    cases h
    exact State.inv_of_no_fault s.coldReset_wf hs.cfg s.coldReset_flt
  | invoke o rd =>
    rcases State.invoke_next_cases h with ⟨ho, rfl⟩ | ⟨c, -, he⟩
    · exact hs.unlessStuck fun _ => ⟨hs.mem, hs.cfg, Handler.ofOpSel_eq_none_iff.1 ho⟩
    · exact exec_inv hs he
  | feed w =>
    obtain ⟨i, -, he⟩ := State.feed_next h
    exact exec_inv (hs.hostSetInstr w) he

/-! ## The configuration, the latch and the output -/

theorem State.hostSetInstr_cfg (w : Word) (s : State) : (s.hostSetInstr w).cfg = s.cfg :=
  State.unlessStuck_keeps State.cfg rfl rfl

theorem perform_cfg {op : HostOp} {s t : State} (h : s.perform op = .next t) : t.cfg = s.cfg := by
  cases op with
  | regRead | regWrite | icRead | icReset | setInstr | memRead | memWrite | regFileReset =>
    cases h
    exact State.unlessStuck_keeps State.cfg rfl rfl
  | coldReset =>
    cases h
    exact s.coldReset_cfg
  | invoke o rd =>
    rcases State.invoke_next_cases h with ⟨-, rfl⟩ | ⟨c, -, he⟩
    · exact State.unlessStuck_keeps State.cfg rfl rfl
    · exact exec_cfg he
  | feed w =>
    obtain ⟨i, -, he⟩ := State.feed_next h
    exact (exec_cfg he).trans (s.hostSetInstr_cfg w)

/-- R13 for one operation: the latch stays, or takes the word set or fed, or is UNSET by `ColdReset`. -/
theorem perform_ir {op : HostOp} {s t : State} (h : s.perform op = .next t) :
    t.ir = s.ir ∨ (∃ w, (op = .setInstr w ∨ op = .feed w) ∧ t.ir = some w) ∨ (op = .coldReset ∧ t.ir = none) := by
  have latched (w : Word) : (s.hostSetInstr w).ir = s.ir ∨ (s.hostSetInstr w).ir = some w :=
    State.unlessStuck_elim (P := fun u => u.ir = s.ir ∨ u.ir = some w) (fun _ _ => .inl rfl) fun _ => .inr rfl
  cases op with
  | regRead | regWrite | icRead | icReset | memRead | memWrite | regFileReset =>
    cases h
    exact .inl (State.unlessStuck_keeps State.ir rfl rfl)
  | setInstr w =>
    cases h
    exact (latched w).imp_right fun hw => .inl ⟨w, .inl rfl, hw⟩
  | coldReset =>
    cases h
    exact .inr (.inr ⟨rfl, s.coldReset_ir⟩)
  | invoke o rd =>
    rcases State.invoke_next_cases h with ⟨-, rfl⟩ | ⟨c, -, he⟩
    · exact .inl (State.unlessStuck_keeps State.ir rfl rfl)
    · exact .inl (exec_ir he)
  | feed w =>
    obtain ⟨i, -, he⟩ := State.feed_next h
    rw [exec_ir he]
    exact (latched w).imp_right fun hw => .inl ⟨w, .inr rfl, hw⟩

/-- With no fault recorded the gate refuses nothing (R56). -/
theorem State.unlessStuck_out_ne_refused {s t : State} (hflt : s.flt = none) (ht : t.out ≠ .refused) :
    (s.unlessStuck t).out ≠ .refused := by
  rwa [State.unlessStuck_of_none hflt]

/-- R61 for one operation: only a recorded fault refuses it. -/
theorem perform_out_ne_refused {op : HostOp} {s t : State} (hflt : s.flt = none) (h : s.perform op = .next t) :
    t.out ≠ .refused := by
  cases op with
  | regRead | regWrite | icRead | icReset | setInstr | memRead | memWrite | regFileReset =>
    cases h
    exact State.unlessStuck_out_ne_refused hflt Output.noConfusion
  | coldReset =>
    cases h
    exact Output.noConfusion
  | invoke o rd =>
    rcases State.invoke_next_cases h with ⟨-, rfl⟩ | ⟨c, -, he⟩
    · exact State.unlessStuck_out_ne_refused hflt Output.noConfusion
    · exact exec_out_ne_refused hflt he
  | feed w =>
    obtain ⟨i, -, he⟩ := State.feed_next h
    rw [State.hostSetInstr_of_none hflt] at he
    exact exec_out_ne_refused (s := (s.latch w).emit .nothing) hflt he

/-! ## The obligations -/

/-- Settles O34: a step is idle or one operation, which keeps the invariant (`perform_inv`). -/
theorem stepKeepsTheInvariant : Obligations.StepKeepsTheInvariant := by
  intro s t hs h
  rcases step_next_cases h with ⟨-, rfl⟩ | ⟨op, rest, -, hop⟩
  · exact hs
  · exact perform_inv hs.dequeue hop

/-- Settles O35: an empty memory, the default configuration, no fault. -/
theorem resetHasTheInvariant : Obligations.ResetHasTheInvariant :=
  State.inv_of_no_fault State.reset_mem_wf (by decide) rfl

/-- Settles O36: `perform_cfg` for the operation a step performs. -/
theorem configurationIsFixed : Obligations.ConfigurationIsFixed := by
  intro s t h
  rcases step_next_cases h with ⟨-, rfl⟩ | ⟨op, rest, -, hop⟩
  · rfl
  · exact perform_cfg (s := s.dequeue) hop

/-- Settles O37: `perform_ic` for the operation a step performs. -/
theorem counterMovesOnlyByCompletionOrReset : Obligations.CounterMovesOnlyByCompletionOrReset := by
  intro s t h
  rcases step_next_cases h with ⟨-, rfl⟩ | ⟨op, rest, hp, hop⟩
  · exact .inl rfl
  · exact (perform_ic hop).imp_right (Or.imp_right fun ⟨h0, hreset⟩ => ⟨h0, op, rest, hp, hreset⟩)

/-- Settles O38: `perform_ir` for the operation a step performs. -/
theorem onlyTheHostWritesTheLatch : Obligations.OnlyTheHostWritesTheLatch := by
  intro s t h
  rcases step_next_cases h with ⟨-, rfl⟩ | ⟨op, rest, hp, hop⟩
  · exact .inl rfl
  · rcases perform_ir hop with hir | ⟨w, rfl | rfl, hw⟩ | ⟨rfl, hnone⟩
    exacts [.inl hir, .inr (.inl ⟨w, rest, .inl hp, hw⟩), .inr (.inl ⟨w, rest, .inr hp, hw⟩),
      .inr (.inr ⟨rest, hp, hnone⟩)]

/-- Settles O33: `perform_out_ne_refused` for the operation a step performs. -/
theorem noOperationIsPrivileged : Obligations.NoOperationIsPrivileged := by
  intro s t hflt hne h
  rcases step_next_cases h with ⟨hp, -⟩ | ⟨op, rest, -, hop⟩
  · exact absurd hp hne
  · exact perform_out_ne_refused (s := s.dequeue) hflt hop

/-- Settles O40: the operation passes the gate, or `faultedCoreRefusesEveryOperation` refuses it. -/
theorem regFileResetClearsRegistersAndCounter : Obligations.RegFileResetClearsRegistersAndCounter := by
  refine fun s rest hp => ⟨fun hflt => ⟨_, step_of_gated hflt hp rfl, ?_, rfl⟩, fun f hflt => ?_⟩
  · exact State.clearRegFile_readReg { s with pending := rest }
  · exact faultedCoreRefusesEveryOperation s f _ rest hflt hp HostOp.noConfusion (fun _ _ => HostOp.noConfusion)

/-- Settles O26: of the four ways an instruction ends only the completion advances the counter. -/
theorem completedInvocationAdvancesTheCounter : Obligations.CompletedInvocationAdvancesTheCounter := by
  refine ⟨fun i s hs => ⟨_, exec_of_ready hs i, ?_, ?_⟩, fun i s hflt hir hic hcfg => ?_, fun i s t hs h => ?_⟩
  · rw [completed_ic, BitVec.toNat_add]
    rfl
  · rw [completed_flt, hs.1]
  · rw [← hic]
    exact exec_of_overflow hflt hir ⟨hic, hcfg⟩ i
  · rcases exec_next_cases h with rfl | ⟨f, rfl⟩ | ⟨hr, -⟩
    exacts [s.refuse_ic, s.raise_ic f, absurd hr hs]

/-- Settles O28: the branches are the selection of no handler and the ways an instruction ends with no fault recorded. -/
theorem faultsAreReportedInOrder : Obligations.FaultsAreReportedInOrder := by
  intro s o rd rest hflt hp
  split_ifs with ho hir hic
  · exact step_of_gated hflt hp (State.invoke_of_noHandler (Handler.ofOpSel_eq_none_iff.2 ho) rd)
  all_goals
    obtain ⟨c, hc⟩ := Option.ne_none_iff_exists'.1 (mt Handler.ofOpSel_eq_none_iff.1 ho)
    have hstep := (step_eq_perform hp).trans (State.invoke_of_handler (s := { s with pending := rest }) hc rd)
  · exact hstep.trans (exec_of_unset (s := { s with pending := rest }) hflt hir _)
  · exact hstep.trans (exec_of_overflow (s := { s with pending := rest }) hflt hir hic _)
  · have hready : State.Ready { s with pending := rest } := ⟨hflt, hir, hic⟩
    refine ⟨_, c, hstep.trans (exec_of_ready hready _), (completed_flt _ _).trans hflt, ?_, Handler.opSel_of_ofOpSel hc⟩
    rw [completed_out, Handler.instr_handler]

end Sys2Proof.Machine

/-! # Frames, and one instruction after another (spec/30_encoding.md R46, spec/40_arithmetic.md, spec/41_load_store.md) -/

namespace Sys2Proof.Machine

/-! ## Memories and words -/

theorem Memory.wf_cons {c : Cell} {m : Memory} :
    Memory.wf (c :: m) ↔ (∀ d ∈ m, c.1 < d.1) ∧ (c.1 < 65536 ∧ c.2 ≠ 0#16) ∧ Memory.wf m := by
  simp only [Memory.wf, List.pairwise_cons, List.forall_mem_cons]
  tauto

/-- Below every listed place a memory reads as unlisted. -/
theorem Memory.read_of_lt {m : Memory} {k : Nat} (h : ∀ c ∈ m, k < c.1) : Memory.read m k = 0#16 := by
  induction m with
  | nil => rfl
  | cons c m ih =>
    obtain ⟨hc, hm⟩ := List.forall_mem_cons.1 h
    rw [Memory.read, if_neg hc.ne', ih hm]

/-- The first cell of a canonical memory stands no higher than that of another that reads alike: its own word is not zero. -/
theorem Memory.head_le_of_read_eq {c d : Cell} {m m' : Memory} (hc : c.2 ≠ 0#16) (hd : ∀ e ∈ m', d.1 < e.1)
    (hread : ∀ k, Memory.read (c :: m) k = Memory.read (d :: m') k) : d.1 ≤ c.1 := by
  by_contra hlt
  have hzero : Memory.read (d :: m') c.1 = 0#16 :=
    read_of_lt (List.forall_mem_cons.2 ⟨not_le.1 hlt, fun e he => (not_le.1 hlt).trans (hd e he)⟩)
  rw [← hread, Memory.read, if_pos rfl] at hzero
  exact hc hzero

/-- Canonical memories that read alike are equal (log 1): their first cells are the lowest places not reading zero. -/
theorem Memory.eq_of_read_eq {m m' : Memory} (hm : Memory.wf m) (hm' : Memory.wf m')
    (hread : ∀ k, Memory.read m k = Memory.read m' k) : m = m' := by
  induction m generalizing m' with
  | nil =>
    cases m' with
    | nil => rfl
    | cons d m' =>
      obtain ⟨-, ⟨-, hd⟩, -⟩ := Memory.wf_cons.1 hm'
      have := hread d.1
      rw [Memory.read, Memory.read, if_pos rfl] at this
      exact absurd this.symm hd
  | cons c m ih =>
    obtain ⟨hlt, ⟨-, hc⟩, hwf⟩ := Memory.wf_cons.1 hm
    cases m' with
    | nil =>
      have := hread c.1
      rw [Memory.read, Memory.read, if_pos rfl] at this
      exact absurd this hc
    | cons d m' =>
      obtain ⟨hlt', ⟨-, hd⟩, hwf'⟩ := Memory.wf_cons.1 hm'
      have hplace : c.1 = d.1 :=
        le_antisymm (head_le_of_read_eq hd hlt fun k => (hread k).symm) (head_le_of_read_eq hc hlt' hread)
      have hword : c.2 = d.2 := by
        have := hread c.1
        rwa [Memory.read, Memory.read, if_pos rfl, if_pos hplace.symm] at this
      obtain rfl : c = d := Prod.ext hplace hword
      refine congrArg (c :: ·) (ih hwf hwf' fun k => ?_)
      by_cases hk : c.1 = k
      · rw [read_of_lt (hk ▸ hlt), read_of_lt (hk ▸ hlt')]
      · have := hread k
        rwa [Memory.read, Memory.read, if_neg hk, if_neg hk] at this

/-! ## The address -/

/-- The address depends on the base register's value and nothing else (R29). -/
theorem State.resolve_congr {s t : State} {br : BaseSel} (disp : Disp) (hcfg : t.cfg = s.cfg)
    (hbase : t.readReg (BaseMap.reg s.cfg.baseMap br) = s.readReg (BaseMap.reg s.cfg.baseMap br)) :
    t.resolve br disp = s.resolve br disp := by
  rw [resolve_eq, resolve_eq, hcfg, hbase]

/-- Writing a register's own value changes nothing. -/
theorem State.writeReg_readReg_same (s : State) (i : RegIdx) : s.writeReg i (s.readReg i) = s :=
  congrArg (fun x => { s with x := x }) (Vector.set_getElem_self i.isLt)

/-- A pair loaded from where it was stored leaves every register as it was, also where the address wraps (R31, R32). -/
theorem State.storePair_loadPair_x (s : State) (ea : Word) : ((s.storePair ea).loadPair ea).x = s.x := by
  have h0 : (s.storePair ea).memRead ea = (s.storePair ea).readReg 0 :=
    (s.storePair_memRead ea ea).trans (if_pos rfl)
  have h1 : (s.storePair ea).memRead (secondCell ea) = (s.storePair ea).readReg 1 :=
    (s.storePair_memRead ea _).trans ((if_neg (secondCell_ne ea)).trans (if_pos (secondCell_eq ea)))
  simp only [State.loadPair, h0, h1, State.writeReg_readReg_same]
  rfl

/-! ## Frames -/

theorem exec_readReg {i : Instr} {s t : State} {r : RegIdx} (h : exec i s = .next t)
    (hbody : (bodyOf i (s.resolve i.br i.disp) s).readReg r = s.readReg r) : t.readReg r = s.readReg r :=
  exec_keeps (read := (·.readReg r)) h (s.refuse_readReg r) (s.raise_readReg · r) hbody

theorem exec_memRead {i : Instr} {s t : State} {a : Word} (h : exec i s = .next t)
    (hbody : (bodyOf i (s.resolve i.br i.disp) s).memRead a = s.memRead a) : t.memRead a = s.memRead a :=
  exec_keeps (read := (·.memRead a)) h (s.refuse_memRead a) (s.raise_memRead · a) hbody

/-- The frame of an instruction whose body writes one register. -/
theorem exec_frame_of_writeReg {i : Instr} {s t : State} {rd : RegIdx} {v : Word} (h : exec i s = .next t)
    (hbody : bodyOf i (s.resolve i.br i.disp) s = s.writeReg rd v) :
    (∀ r, r ≠ rd → t.readReg r = s.readReg r) ∧ (∀ a, t.memRead a = s.memRead a) ∧
    t.ir = s.ir ∧ t.cfg = s.cfg ∧ t.pending = s.pending := by
  refine ⟨fun r hr => exec_readReg h ?_, fun a => exec_memRead h ?_, exec_ir h, exec_cfg h, exec_pending h⟩
  · rw [hbody, s.writeReg_readReg_of_ne v hr]
  · rw [hbody, State.writeReg_memRead]

/-! ## The obligations -/

/-- Settles O13: `Memory.eq_of_read_eq`, by induction on the first memory. -/
theorem canonicalMemoriesReadingAlikeAreEqual : Obligations.CanonicalMemoriesReadingAlikeAreEqual :=
  fun _ _ => Memory.eq_of_read_eq

/-- Settles O11: the register each of the two maps names, put into the address. -/
theorem baseSelectorNamesItsRegister : Obligations.BaseSelectorNamesItsRegister := by
  intro s br disp
  refine ⟨fun hmap => ?_, fun hmap => ?_⟩
  · rw [resolve_eq, hmap, BaseMap.reg_high]
    rfl
  · rw [resolve_eq, hmap, BaseMap.reg_low]
    rfl

/-- Settles O21: the three operations are those of 16-bit words, whose sign is only a reading. -/
theorem aluIsTheSameForUnsignedOperands : Obligations.AluIsTheSameForUnsignedOperands := by
  intro a b
  rw [aluAdd_eq, aluSub_eq, aluMul_eq, BitVec.toNat_add, BitVec.toNat_sub, BitVec.toNat_mul]
  refine ⟨rfl, ?_, rfl⟩
  have hb := b.isLt
  omega

/-- Settles O22: the body of each of the four is one register write. -/
theorem registerWritersFrame : Obligations.RegisterWritersFrame := by
  rintro rd br disp s t (h | h | h | h)
  · exact exec_frame_of_writeReg h (s.aluInto_eq aluAdd _ _)
  · exact exec_frame_of_writeReg h (s.aluInto_eq aluSub _ _)
  · exact exec_frame_of_writeReg h (s.aluInto_eq aluMul _ _)
  · exact exec_frame_of_writeReg h rfl

/-- Settles O23: the body writes R0 and R1. -/
theorem dlbFrame : Obligations.DlbFrame := by
  intro br disp s t h
  refine ⟨fun r h0 h1 => exec_readReg h ?_, fun a => exec_memRead h rfl, exec_ir h, exec_cfg h, exec_pending h⟩
  exact (State.writeReg_readReg_of_ne _ _ h1).trans (State.writeReg_readReg_of_ne _ _ h0)

/-- Settles O24: the body writes the addressed cell. -/
theorem stbFrame : Obligations.StbFrame := by
  intro rd br disp s t h
  refine ⟨fun r => exec_readReg h rfl, fun a ha => exec_memRead h ?_, exec_ir h, exec_cfg h, exec_pending h⟩
  exact (s.memWrite_memRead _ _ a).trans (if_neg ha.symm)

/-- Settles O25: the body writes the two addressed cells. -/
theorem dstbFrame : Obligations.DstbFrame := by
  intro br disp s t h
  refine ⟨fun r => exec_readReg h rfl, fun a ha ha' => exec_memRead h ?_, exec_ir h, exec_cfg h, exec_pending h⟩
  refine (s.storePair_memRead _ a).trans ((if_neg ha).trans (if_neg ?_))
  rwa [← secondCell_eq]

/-- Settles O45: STB leaves the read pending and no fault, so the read passes the gate and sees the stored cell. -/
theorem hostReadSeesTheStore : Obligations.HostReadSeesTheStore := by
  intro s t rd br disp b rest hs hp h
  rw [exec_of_ready_eq hs] at h
  cases h
  refine ⟨_, step_of_gated hs.1 hp rfl, congrArg Output.word ?_⟩
  exact (s.memWrite_memRead _ _ b).trans (if_congr eq_comm rfl rfl)

/-- Settles O52: the store leaves the address, and the loaded cell is the stored one. -/
theorem loadAfterStoreGivesTheStoredWord : Obligations.LoadAfterStoreGivesTheStoredWord := by
  intro rd rd' br disp s t hs h ht
  rw [exec_of_ready_eq hs] at h
  cases h
  refine ⟨_, exec_of_bodyOf_eq_writeReg ht (congrArg (State.writeReg _ rd') (State.memOperand_eq _ _)), ?_⟩
  exact (State.writeReg_readReg_self _ rd' _).trans ((s.memWrite_memRead _ _ _).trans (if_pos rfl))

/-- Settles O53: DSTB and DLB run their bodies at the same address (`storePair_loadPair_x`). -/
theorem doubleLoadAfterDoubleStoreKeepsThePair : Obligations.DoubleLoadAfterDoubleStoreKeepsThePair := by
  intro br disp s t hs h ht
  rw [exec_of_ready_eq hs] at h
  cases h
  refine ⟨_, exec_of_ready_eq ht _, fun r => ?_⟩
  exact congrArg (fun x : Vector Word 16 => x[r]) (s.storePair_loadPair_x (s.resolve br disp))

/-- Settles O54: AB leaves the base register, so SBB subtracts the cell that was added. -/
theorem subtractUndoesAdd : Obligations.SubtractUndoesAdd := by
  intro rd br disp s t hbase hs h ht
  obtain ⟨hothers, hmem, -, hcfg, -⟩ := registerWritersFrame rd br disp s t (.inl h)
  have hea : t.resolve br disp = s.resolve br disp := State.resolve_congr disp hcfg (hothers _ hbase)
  have hsum : t.readReg rd = aluAdd (s.readReg rd) (s.memRead (s.resolve br disp)) := by
    rw [exec_of_bodyOf_eq_writeReg (i := .ab rd br disp) hs (s.aluInto_eq aluAdd rd _)] at h
    cases h
    exact s.writeReg_readReg_self rd _
  refine ⟨_, exec_of_bodyOf_eq_writeReg (i := .sbb rd br disp) ht (t.aluInto_eq aluSub rd _), fun r => ?_⟩
  by_cases hr : r = rd
  · subst hr
    refine (t.writeReg_readReg_self r _).trans ?_
    rw [Instr.br, Instr.disp, hea, hmem, hsum, aluSub_eq, aluAdd_eq, BitVec.add_sub_cancel]
  · exact (t.writeReg_readReg_of_ne _ hr).trans (hothers r hr)

end Sys2Proof.Machine

/-! # What results depend on (spec/00_scope.md R5, spec/20_memory.md R34, spec/30_encoding.md R41) -/

namespace Sys2Proof.Machine

/-- The state with another latch, other pending operations and another output: what no instruction computes from (R5). -/
def State.withHostSide (s : State) (ir : Option Word) (pending : List HostOp) (out : Output) : State :=
  { s with ir := ir, pending := pending, out := out }

/-- States that agree in all an instruction computes from differ in what the host wrote and read only. -/
theorem State.eq_withHostSide {s s' : State} (hx : s.x = s'.x) (hmem : s.mem = s'.mem) (hic : s.ic = s'.ic)
    (hflt : s.flt = s'.flt) (hcfg : s.cfg = s'.cfg) : s' = s.withHostSide s'.ir s'.pending s'.out :=
  State.ext hcfg.symm hx.symm hic.symm rfl hmem.symm hflt.symm rfl rfl

theorem completed_withHostSide (i : Instr) (s : State) (ir : Option Word) (ops : List HostOp) (out : Output) :
    completed i (s.withHostSide ir ops out) = (completed i s).withHostSide ir ops (completed i s).out := by
  cases i <;> rfl

/-- An instruction computes nothing from the latched word's value, the pending operations or the last output, and overwrites
the output. -/
theorem exec_withHostSide {i : Instr} {s t : State} {ir : Option Word} (hir : s.ir = none ↔ ir = none)
    (ops : List HostOp) (out : Output) (h : exec i s = .next t) :
    exec i (s.withHostSide ir ops out) = .next (t.withHostSide ir ops t.out) := by
  rcases exec_cases i s with ⟨f, hflt, e⟩ | ⟨hflt, hs, e⟩ | ⟨hflt, hs, hic, e⟩ | ⟨⟨hflt, hs, hic⟩, e⟩ <;>
    rw [e] at h <;> cases h
  · exact exec_of_faulted (s := s.withHostSide ir ops out) hflt i
  · exact exec_of_unset (s := s.withHostSide ir ops out) hflt (hir.1 hs) i
  · exact exec_of_overflow (s := s.withHostSide ir ops out) hflt (mt hir.2 hs) hic i
  · rw [← completed_withHostSide i s ir ops out]
    exact exec_of_ready (s := s.withHostSide ir ops out) ⟨hflt, mt hir.2 hs, hic⟩ i

/-- Where a word is latched, another latched word changes nothing but the latch. -/
theorem exec_latch {i : Instr} {s t : State} (w : Word) (hir : s.ir ≠ none) (h : exec i s = .next t) :
    exec i (s.latch w) = .next (t.latch w) := by
  have hnone : s.ir = none ↔ some w = none := by simp [hir]
  refine (exec_withHostSide hnone s.pending s.out h).trans (congrArg Host.Outcome.next ?_)
  rw [← exec_pending h]
  rfl

/-- The gate does not look at the latch. -/
theorem State.unlessStuck_latch (s t : State) (w : Word) :
    (s.latch w).unlessStuck (t.latch w) = (s.unlessStuck t).latch w := by
  cases hflt : s.flt with
  | none => rw [unlessStuck_of_none hflt, unlessStuck_of_none (s := s.latch w) hflt]
  | some f => rw [unlessStuck_of_some hflt, unlessStuck_of_some (s := s.latch w) hflt]; rfl

/-- An invocation reads the latched word below bit 10 only (R41). -/
theorem State.invoke_latch {s t : State} {w w' : Word} {o : OpSel} {rd : RegIdx} (hs : s.ir = some w)
    (hw : w.extractLsb' 0 10 = w'.extractLsb' 0 10) (h : s.invoke o rd = .next t) :
    (s.latch w').invoke o rd = .next (t.latch w') := by
  cases ho : Handler.ofOpSel o with
  | none =>
    rw [State.invoke_of_noHandler ho] at h ⊢
    cases h
    exact congrArg Host.Outcome.next (s.unlessStuck_latch (s.raise (.noHandler o)) w')
  | some c =>
    rw [State.invoke_of_latched ho hs] at h
    rw [State.invoke_of_latched (w := w') ho rfl, ← c.instr_eq_of_low_eq rd hw]
    exact exec_latch w' (by simp [hs]) h

/-- Where the memories agree at the cells a body reads, it leaves the same registers. -/
theorem bodyOf_x_congr {i : Instr} {ea : Word} {s : State} {m : Memory}
    (hea : s.memRead ea = State.memRead { s with mem := m } ea)
    (hdlb : i.handler = .dlb → s.memRead (secondCell ea) = State.memRead { s with mem := m } (secondCell ea)) :
    (bodyOf i ea s).x = (bodyOf i ea { s with mem := m }).x := by
  cases i with
  | ab rd | sbb rd | mb rd =>
    simp only [bodyOf, State.aluInto_eq, hea]
    rfl
  | lb rd =>
    simp only [bodyOf, State.memOperand_eq, hea]
    rfl
  | dlb =>
    simp only [bodyOf, State.loadPair, hea, hdlb rfl]
    rfl
  | stb | dstb => rfl

/-- An invocation that does not complete writes no register. -/
theorem exec_x_of_not_ready {i : Instr} {s t : State} (hs : ¬ s.Ready) (h : exec i s = .next t) : t.x = s.x := by
  rcases exec_next_cases h with rfl | ⟨f, rfl⟩ | ⟨hr, -⟩
  exacts [s.refuse_x, s.raise_x f, absurd hr hs]

/-! ## The obligations -/

/-- Settles O8: both latches are set, and the invocation does not tell them apart (`invoke_latch`). -/
theorem opcodeFieldOfTheLatchIsNotRead : Obligations.OpcodeFieldOfTheLatchIsNotRead := by
  intro s t w w' o rd rest hw hp h
  rw [step_eq_perform (s := { s with ir := some w }) hp] at h
  rw [step_eq_perform (s := { s with ir := some w' }) hp]
  exact State.invoke_latch (s := { s with ir := some w, pending := rest }) rfl hw h

/-- Settles O50: the second state is the first but for what `exec_withHostSide` varies. -/
theorem resultsDependOnCoreStateOnly : Obligations.ResultsDependOnCoreStateOnly := by
  intro i s s' t t' hx hmem hic hflt hcfg hir h h'
  rw [State.eq_withHostSide hx hmem hic hflt hcfg, exec_withHostSide hir _ _ h] at h'
  cases h'
  exact ⟨rfl, rfl, rfl, rfl, rfl⟩

/-- Settles O51: whether the invocation completes does not depend on memory, and its body reads the given cells only. -/
theorem registersDependOnTheReadCellsOnly : Obligations.RegistersDependOnTheReadCellsOnly := by
  intro i s t t' m hea hdlb h h'
  by_cases hs : s.Ready
  · rw [exec_of_ready_eq hs] at h
    rw [exec_of_ready_eq (s := { s with mem := m }) hs] at h'
    cases h
    cases h'
    exact bodyOf_x_congr hea hdlb
  · exact (exec_x_of_not_ready hs h).trans (exec_x_of_not_ready (s := { s with mem := m }) hs h').symm

end Sys2Proof.Machine

/-! # Steps and runs of fed words (spec/95_test_vectors.md section 3, spec/10_state.md R12, R19) -/

namespace Sys2Proof.Machine

/-- A step that feeds a word which decodes runs its instruction with the word latched (log 11). -/
theorem step_feed {s : State} {w : Word} {i : Instr} {rest : List HostOp} (hflt : s.flt = none)
    (hp : s.pending = .feed w :: rest) (hd : decode s.cfg.opcode6 w = .instr i) :
    step s = exec i { s with pending := rest, ir := some w, out := .nothing } := by
  rw [step_eq_perform hp]
  refine (State.feed_of_instr (s := { s with pending := rest }) hd).trans ?_
  rw [State.hostSetInstr_of_none (s := { s with pending := rest }) hflt]
  rfl

/-- `Invoke` with the reference decode's `op_sel` and `rd`, on the decoded word latched, runs the decoded instruction. -/
theorem step_invoke_of_decode {t : Opcode6} {s : State} {w : Word} {i : Instr} {rd : RegIdx} {rest : List HostOp}
    (hd : decode t w = .instr i) (hrd : ∀ r, i.rd? = some r → rd = r) (hir : s.ir = some w)
    (hp : s.pending = .invoke i.handler.opSel rd :: rest) : step s = exec i { s with pending := rest } := by
  obtain ⟨h, -, rfl⟩ := exists_handler_of_decode hd
  rw [Handler.instr_handler] at hp
  rw [step_eq_perform hp, ← Handler.instr_eq_of_rd? hrd]
  exact State.invoke_of_latched (s := { s with pending := rest }) h.ofOpSel_opSel hir rd

/-- Under `wrap` a fed word that decodes completes: no fault, one operation consumed, the counter one further (R19). -/
theorem step_feed_of_wrap {s : State} {w : Word} {i : Instr} {rest : List HostOp} (hflt : s.flt = none)
    (hwrap : s.cfg.icOverflow = .wrap) (hp : s.pending = .feed w :: rest) (hd : decode s.cfg.opcode6 w = .instr i) :
    ∃ t, step s = .next t ∧ t.flt = none ∧ t.cfg = s.cfg ∧ t.pending = rest ∧ t.ic = s.ic + 1#16 := by
  have hready : State.Ready { s with pending := rest, ir := some w, out := .nothing } :=
    ⟨hflt, Option.some_ne_none w, fun ⟨_, hfault⟩ => by rw [hwrap] at hfault; cases hfault⟩
  refine ⟨_, (step_feed hflt hp hd).trans (exec_of_ready hready i), ?_⟩
  exact ⟨(completed_flt i _).trans hflt, completed_cfg i _, completed_pending i _, completed_ic i _⟩

/-- Under `wrap` a list of fed words that all decode runs to its end, and the counter counts them. -/
theorem run_fed_words (ws : List Word) {s : State} (hflt : s.flt = none) (hwrap : s.cfg.icOverflow = .wrap)
    (hp : s.pending = ws.map HostOp.feed) (hd : ∀ w ∈ ws, ∃ i, decode s.cfg.opcode6 w = .instr i) :
    ∃ t : State, Host.Core.run Sys2Proof.core ws.length s = .next t ∧ t.flt = none ∧
      t.ic = s.ic + BitVec.ofNat 16 ws.length := by
  induction ws generalizing s with
  | nil => exact ⟨s, rfl, hflt, (BitVec.add_zero _).symm⟩
  | cons w ws ih =>
    obtain ⟨⟨i, hi⟩, hrest⟩ := List.forall_mem_cons.1 hd
    obtain ⟨u, hstep, huflt, hucfg, hup, huic⟩ := step_feed_of_wrap hflt hwrap hp hi
    obtain ⟨t, hrun, htflt, htic⟩ := ih huflt (hucfg ▸ hwrap) hup (hucfg ▸ hrest)
    refine ⟨t, (run_of_step _ hstep).trans hrun, htflt, ?_⟩
    rw [htic, huic, List.length_cons, BitVec.add_assoc, BitVec.ofNat_add, BitVec.add_comm (1#16)]

/-! ## The obligations -/

/-- Settles O46: `step_feed`, from `s` itself and from `s` with one more operation. -/
theorem stepRunsTheFedInstruction : Obligations.StepRunsTheFedInstruction :=
  ⟨fun _ _ _ _ => step_feed, fun s nbits w _ hflt hd => step_feed (s := s.withFetchWord nbits w) hflt rfl hd⟩

/-- Settles O47: with no fault both ways run the handler's instruction on the fed word; with one both are refused. -/
theorem feedIsSetInstrThenInvoke : Obligations.FeedIsSetInstrThenInvoke := by
  intro s w i rd rest hd hrd
  rcases Option.eq_none_or_eq_some s.flt with hflt | ⟨f, hflt⟩
  · refine ⟨_, hostSetInstrLatchesAnyWord _ w _ hflt rfl, ?_⟩
    have hfeed := step_feed (s := { s with pending := .feed w :: rest }) hflt rfl hd
    exact (step_invoke_of_decode hd hrd rfl rfl).trans hfeed.symm
  · have hdecodes : ∀ v opc, HostOp.feed w = .feed v → decode s.cfg.opcode6 v ≠ .reserved opc := by
      rintro v opc ⟨⟩
      rw [hd]
      exact Decoded.noConfusion
    refine ⟨_, faultedCoreRefusesEveryOperation _ f _ _ hflt rfl HostOp.noConfusion fun _ _ => HostOp.noConfusion, ?_⟩
    have hfeed := faultedCoreRefusesEveryOperation { s with pending := .feed w :: rest } f _ rest hflt rfl
      HostOp.noConfusion hdecodes
    rw [hfeed]
    exact faultedCoreRefusesEveryOperation _ f _ _ hflt rfl HostOp.noConfusion fun _ _ => HostOp.noConfusion

/-- Settles O48: `run_fed_words`, by induction on the words. -/
theorem fedWordsAllComplete : Obligations.FedWordsAllComplete := by
  intro ws s hflt hwrap hp hd
  obtain ⟨t, hrun, htflt, hic⟩ := run_fed_words ws hflt hwrap hp hd
  exact ⟨⟨t, hrun, htflt⟩, t, hrun, hic⟩

/-- Settles O49: an idle step answers its own state, any number of times. -/
theorem idleCoreKeepsItsState : Obligations.IdleCoreKeepsItsState := by
  intro s hp k
  induction k with
  | zero => rfl
  | succ k ih => exact (run_of_step k (step_idle hp)).trans ih

end Sys2Proof.Machine
